-- ==== Sys2Proof/Word.lean ====
section
/-! DEFINITION. The word types of the block: every frame and buffer element is one byte, the
operand port and the timer are 16 bits wide (spec/00_scope.md R8, R9). -/

namespace Sys2Proof

/-- An unsigned 8-bit value, spec/00_scope.md R8. -/
abbrev Byte := BitVec 8

/-- A 16-bit field of the `cmd` port or a 16-bit register, spec/00_scope.md R9, spec/10_state.md R19 to R24. -/
abbrev Half := BitVec 16

/-- A request frame and the frame register `TXF`: 14 bytes, index 0 sent first (spec/10_state.md R11,
spec/30_encoding.md R60, spec/90_conflicts.md C1). -/
abbrev Frame := Vector Byte 14

/-- An acknowledgement pattern and the pattern register `ACKP`: 4 bytes (spec/10_state.md R12, spec/30_encoding.md R61). -/
abbrev Pattern := Vector Byte 4

/-- The 8 payload bytes `L1 T1 L2 T2 L3 T3 L4 T4` (spec/30_encoding.md R60). -/
abbrev Payload := Vector Byte 8

end Sys2Proof
end

