-- ==== Sys2Proof/Config.lean ====
section
/-! DEFINITION. What is fixed for the machine: the protocol constants the spec gives, the reset values of
the configuration registers, and the free values the spec leaves open (constants with no body). -/

namespace Sys2Proof.Config

/-! Protocol constants, spec/00_scope.md R3. -/

def sync : Byte := 0xFF
def start : Byte := 0xFE
def stop : Byte := 0xFF
/-- The one command opcode, "set levels". -/
def cmdSet : Byte := 0x57
/-- The code byte of an acknowledgement. -/
def ackCode : Byte := 0x06
/-- The filler pair of a channel that is not addressed. -/
def fillLevel : Byte := 1
def fillFade : Byte := 5
def frameLen : Nat := 14
def ackLen : Nat := 4

/-! The buffer and the defaults of the configuration registers: spec/00_scope.md R4, R7; spec/10_state.md R21 to
R25, R31. -/

/-- The physical size of the receive buffer, `MAXBUF_HW`. -/
def maxBufHw : Nat := 4096
/-- The smallest legal `CFG_MAXBUF`, spec/10_state.md R25. -/
def minBuf : Nat := 4
def resetTTotal : Half := 800
def resetTChunk : Half := 120
def resetTFlushWindow : Half := 80
def resetTFlushRead : Half := 10
def resetMaxBuf : BitVec 13 := 4096

/-! The reference host, spec/00_scope.md R6. -/

/-- `RETRY`, the default number of attempts of one `SET`. -/
def defaultRetry : Nat := 3
/-- The fade used for a missing or invalid transition time. -/
def defaultFade : Byte := 5

/-! Free values. Each is a constant without a body, applied to the counter `draws` of the state (or to the
controller it belongs to), so that nothing can be proved of what it is. -/

/-- DESIGN CHOICE (log 3, log 15). A byte the spec leaves open: an element of `TXF` or `ACKP` before the first
`TRANSACT` after reset (spec/93_implementation_defined.md U1), or the brightness cached for a level outside
0..255 (spec/91_not_in_source.md N22). -/
opaque freeByte : Nat → Byte

/-- DESIGN CHOICE (log 4). The environment's answer to an attempt to open the link, where the state lists none
(spec/93_implementation_defined.md U3). -/
opaque linkOpens : Nat → Bool

/-- DESIGN CHOICE (log 5). The arbiter's choice among waiting requesters, where the state lists none
(`ARBITER`, spec/60_exceptions.md R208). -/
opaque arbiter : Nat → Nat

/-- DESIGN CHOICE (log 14). `INIT_IS_ON` of the controller of an address and a channel (spec/43_host_controller.md R170). -/
opaque initIsOn : Byte → BitVec 3 → Bool

/-- DESIGN CHOICE (log 14). `INIT_BRIGHTNESS` of the controller of an address and a channel (spec/43_host_controller.md R170). -/
opaque initBrightness : Byte → BitVec 3 → Byte

end Sys2Proof.Config
end

