-- ==== Sys2Proof/Machine/AckDetect.lean ====
section
/-! DEFINITION. The ACK detector family, pure functions (spec/41_ack_detect.md): CONTAINS_ACK, KEEP_LAST, RX_APPEND, and the two
streaming forms of the same test, the window and the automaton. -/

namespace Sys2Proof.Machine

open Sys2Proof

/-- The four bytes of a pattern stand at the front of a byte sequence. -/
def startsWith (pattern : Pattern) (bs : List Byte) : Bool :=
  bs.take Config.ackLen == pattern.toList

/-- `CONTAINS_ACK(buffer, pattern)` (spec/41_ack_detect.md R110): the pattern stands somewhere in the buffer. -/
def containsAck (buffer : List Byte) (pattern : Pattern) : Bool :=
  match buffer with
  | [] => false
  | b :: rest => startsWith pattern (b :: rest) || containsAck rest pattern

/-- `KEEP_LAST(s, n)` (spec/41_ack_detect.md R111): the newest `n` elements in their order, all of them if there are no more. -/
def keepLast (s : List Byte) (n : Nat) : List Byte :=
  s.drop (s.length - n)

/-- `RX_APPEND(buffer, chunk, n, pattern)` (spec/41_ack_detect.md R112): append, truncate, then test the truncated buffer. -/
def rxAppend (buffer chunk : List Byte) (n : Nat) (pattern : Pattern) : List Byte × Bool :=
  let buffer' := keepLast (buffer ++ chunk) n
  (buffer', containsAck buffer' pattern)

/-! ### The window form, one byte per step (spec/41_ack_detect.md R114) -/

/-- The window after byte `x`. -/
def windowStep (w : List Byte) (x : Byte) : List Byte := keepLast (w ++ [x]) 4

/-- The window holds the pattern. -/
def windowHit (w : List Byte) (pattern : Pattern) : Bool := w.length == 4 && w == pattern.toList

/-- The window after a sequence of bytes taken one by one from the entry to `AWAITING`. -/
def windowAfter (bs : List Byte) : List Byte := bs.foldl windowStep []

/-- The buffer after the same bytes taken as chunks of one byte, with bound `n`. -/
def bufferAfter (n : Nat) (bs : List Byte) : List Byte := bs.foldl (fun b x => keepLast (b ++ [x]) n) []

/-! ### The automaton form, one byte per step (spec/41_ack_detect.md R115) -/

/-- The state (how many leading bytes of the pattern the newest bytes spell) after byte `x`, with the special case of address
`0xFE`: from state 2, `0xFE` keeps state 2. -/
def automatonStep (pattern : Pattern) (s : Nat) (x : Byte) : Nat :=
  if pattern.toList[s]? = some x then s + 1
  else if x = Config.start then
    if s = 2 ∧ pattern[1] = Config.start then 2 else 1
  else 0

/-- The automaton's state after a sequence of bytes taken one by one from state 0; it stays in state 4, "hit". -/
def automatonAfter (pattern : Pattern) (bs : List Byte) : Nat :=
  bs.foldl (fun s x => if s = 4 then 4 else automatonStep pattern s x) 0

end Sys2Proof.Machine
end

