-- ==== Sys2Proof/Syntax.lean ====
section
/-! DEFINITION. The syntax: where a signal reaches the machine, what a chunk is, and one constructor of `Instr`
for each row of spec/opcode_table.json. -/

namespace Sys2Proof

/-- Where a signal reaches the machine. The format of its bits is told by the port, never by the bits (spec/30_encoding.md R71, R72,
R75; spec/10_state.md R32). -/
inductive Port where
  /-- The 45-bit command port. -/
  | cmd
  /-- The `tx`, `rx` and `tick` signals, with the codes of spec/30_encoding.md R72. -/
  | event
  /-- The bus seen at the transmitter: whole frames of format `REQ` (spec/42_transaction.md R158). -/
  | wireOut
  /-- The bus seen at the receiver: whole frames of format `ACK`. -/
  | wireIn
  /-- A call of the reference host's function `set` (spec/30_encoding.md R75, R76). -/
  | setCall
  /-- A call of the reference host's function `turn_off`. -/
  | turnOffCall
  deriving DecidableEq, Repr

/-- The bytes one successful read returns: at least one, in order (spec/20_memory.md R45). -/
structure Chunk where
  first : Byte
  rest : List Byte
  deriving DecidableEq, Repr

/-- The rows of spec/opcode_table.json. -/
inductive Instr where
  /-- `SET_LEVELS`: a whole request frame on the wire, with its 7 checksum bits (spec/30_encoding.md R60). -/
  | setLevels (addr l1 t1 l2 t2 l3 t3 l4 t4 : Byte) (cks : BitVec 7)
  /-- `ACK`: an acknowledgement frame of the module `addr` (spec/30_encoding.md R61). -/
  | ack (addr : Byte)
  /-- `CONNECT` (spec/42_transaction.md R133). -/
  | connect
  /-- `CFGWR reg, value` (spec/42_transaction.md R134). -/
  | cfgwr (reg : BitVec 3) (value : Half)
  /-- `TRANSACT address, channel, level, fade` (spec/42_transaction.md R141). -/
  | transact (address : Byte) (channel : BitVec 3) (level fade : Half)
  /-- The reserved command code 11 (spec/42_transaction.md R135). -/
  | cmdReserved
  /-- `TICK` (spec/42_transaction.md R145, R149, R153, R155). -/
  | tick
  /-- `RX_CHUNK(bytes)` (spec/42_transaction.md R143, R151). -/
  | rxChunk (chunk : Chunk)
  /-- `RX_ERR` (spec/42_transaction.md R144, R152). -/
  | rxErr
  /-- `TX_ACCEPT` (spec/42_transaction.md R146, R147). -/
  | txAccept
  /-- `TX_ERR` (spec/42_transaction.md R148). -/
  | txErr
  /-- `SET level, fade` on the controller of `address` and `channel` (spec/43_host_controller.md R172). -/
  | set (address : Byte) (channel : BitVec 3) (level fade : Half)
  /-- `TURN_OFF fade` on the controller of `address` and `channel` (spec/43_host_controller.md R176). -/
  | turnOff (address : Byte) (channel : BitVec 3) (fade : Half)
  deriving DecidableEq, Repr

end Sys2Proof
end

