-- ==== Sys2Proof/Machine/FrameCodec.lean ====
section
/-! DEFINITION. The frame encoder family, pure functions (spec/40_frame_encode.md): CLAMP, CHECKSUM, PAYLOAD, ENCODE_SET,
EXPECTED_ACK and the check DECODE_SET. -/

namespace Sys2Proof.Machine

open Sys2Proof

/-- The four channels of a module (spec/00_scope.md R3). `ENCODE_SET` takes no other value (spec/40_frame_encode.md R99). -/
inductive Channel where
  | ch1
  | ch2
  | ch3
  | ch4
  deriving DecidableEq, Repr

/-- The channel a 3-bit operand names, if it is one of 1..4 (spec/40_frame_encode.md R92, R99). -/
def channelOf (field : BitVec 3) : Option Channel :=
  match field.toNat with
  | 1 => some .ch1
  | 2 => some .ch2
  | 3 => some .ch3
  | 4 => some .ch4
  | _ => none

/-- The number of a channel, 1..4. -/
def channelNumber : Channel → Nat
  | .ch1 => 1
  | .ch2 => 2
  | .ch3 => 3
  | .ch4 => 4

/-- The integer value of a 16-bit operand of the `cmd` port, `sext_16` (spec/40_frame_encode.md R92). -/
def sext16 (field : Half) : Int := field.toInt

/-- `CLAMP(v)` (spec/40_frame_encode.md R91). -/
def clamp (v : Int) : Byte :=
  if v < 0 then 0
  else if v > 255 then 255
  else BitVec.ofInt 8 v

/-- The exact integer sum under `CHECKSUM` (spec/40_frame_encode.md R90). -/
def checksumSum (address command : Byte) (p : Payload) : Nat :=
  address.toNat + command.toNat + (p.toList.map BitVec.toNat).sum

/-- `CHECKSUM(address, command, payload)` (spec/40_frame_encode.md R90). -/
def checksum (address command : Byte) (p : Payload) : Byte :=
  BitVec.ofNat 8 (checksumSum address command p &&& 0xFF &&& 0x7F)

/-- The (level, fade) pair of channel `c` in a request for channel `target` (spec/40_frame_encode.md R93). -/
def pairFor (target c : Channel) (level fade : Int) : Byte × Byte :=
  if c = target then (clamp level, clamp fade) else (Config.fillLevel, Config.fillFade)

/-- `PAYLOAD(channel, level, fade)` (spec/40_frame_encode.md R93). -/
def payload (target : Channel) (level fade : Int) : Payload :=
  let pair c := pairFor target c level fade
  #v[(pair .ch1).1, (pair .ch1).2, (pair .ch2).1, (pair .ch2).2,
     (pair .ch3).1, (pair .ch3).2, (pair .ch4).1, (pair .ch4).2]

/-- The 14 bytes of format `REQ` around an address, a payload and a checksum byte (spec/30_encoding.md R60). -/
def requestFrame (address : Byte) (p : Payload) (cks : Byte) : Frame :=
  #v[Config.sync, Config.start, address, Config.cmdSet,
     p[0], p[1], p[2], p[3], p[4], p[5], p[6], p[7], cks, Config.stop]

/-- `ENCODE_SET(address, channel, level, fade)` (spec/40_frame_encode.md R94). -/
def encodeSet (address : Byte) (target : Channel) (level fade : Int) : Frame :=
  let p := payload target level fade
  requestFrame address p (checksum address Config.cmdSet p)

/-- `EXPECTED_ACK(address)` (spec/40_frame_encode.md R95). -/
def expectedAck (address : Byte) : Pattern :=
  #v[Config.start, address, Config.ackCode, Config.stop]

/-- What `DECODE_SET` reads from a valid request frame: the address and the four pairs, channel 1 first. -/
structure DecodedSet where
  address : Byte
  pairs : List (Byte × Byte)
  deriving DecidableEq, Repr

/-- `DECODE_SET(f)`, `none` where the spec says `invalid` (spec/40_frame_encode.md R97). A check for tests; no step performs it. -/
def decodeSet (f : List Byte) : Option DecodedSet :=
  match f with
  | [b0, b1, a, b3, l1, t1, l2, t2, l3, t3, l4, t4, k, b13] =>
    if b0 = Config.sync ∧ b1 = Config.start ∧ b3 = Config.cmdSet ∧ b13 = Config.stop ∧
        k = checksum a b3 #v[l1, t1, l2, t2, l3, t3, l4, t4] then
      some { address := a, pairs := [(l1, t1), (l2, t2), (l3, t3), (l4, t4)] }
    else none
  | _ => none

end Sys2Proof.Machine
end

