-- ==== Sys2Proof/WellFormed.lean ====
section
/-! DEFINITION. Which instructions are well-formed: a request frame the block can build, and host calls inside the
reference host's domain. Every command and event of the block is well-formed, since the block gives each a meaning (an illegal
channel, register or bound has a result code of its own). -/

namespace Sys2Proof

open Machine

/-- The checksum field of a request frame is the one its bytes 2 to 11 give (spec/30_encoding.md R65, spec/opcode_table.json's
constraint on `k`). -/
def checksumOk (addr l1 t1 l2 t2 l3 t3 l4 t4 : Byte) (cks : BitVec 7) : Bool :=
  checksum addr Config.cmdSet #v[l1, t1, l2, t2, l3, t3, l4, t4] == cks.setWidth 8

/-- A pair is the filler pair (spec/30_encoding.md R64). -/
def isFiller (level fade : Byte) : Bool :=
  level == Config.fillLevel && fade == Config.fillFade

/-- At least three of the four pairs are filler: one channel is addressed (spec/30_encoding.md R63, R64). -/
def oneChannelAddressed (l1 t1 l2 t2 l3 t3 l4 t4 : Byte) : Bool :=
  (isFiller l2 t2 && isFiller l3 t3 && isFiller l4 t4) ||
  (isFiller l1 t1 && isFiller l3 t3 && isFiller l4 t4) ||
  (isFiller l1 t1 && isFiller l2 t2 && isFiller l4 t4) ||
  (isFiller l1 t1 && isFiller l2 t2 && isFiller l3 t3)

/-- A controller's fixed address, 1..247 (spec/43_host_controller.md R170). -/
def busAddress (a : Byte) : Bool := decide (1 ≤ a.toNat ∧ a.toNat ≤ 247)

/-- A controller's fixed channel, 1..4 (spec/43_host_controller.md R170). -/
def legalChannel (c : BitVec 3) : Bool := (channelOf c).isSome

/-- A level or fade operand of the reference host, 0..255 (spec/43_host_controller.md R172). -/
def byteRange (v : Half) : Bool := decide (0 ≤ sext16 v ∧ sext16 v ≤ 255)

/-- Well-formed instructions. -/
def Instr.wellFormed : Instr → Bool
  | .setLevels addr l1 t1 l2 t2 l3 t3 l4 t4 cks =>
    checksumOk addr l1 t1 l2 t2 l3 t3 l4 t4 cks && oneChannelAddressed l1 t1 l2 t2 l3 t3 l4 t4
  | .ack _ => true
  | .connect => true
  | .cfgwr _ _ => true
  | .transact _ _ _ _ => true
  | .cmdReserved => true
  | .tick => true
  | .rxChunk _ => true
  | .rxErr => true
  | .txAccept => true
  | .txErr => true
  | .set address channel level fade =>
    busAddress address && legalChannel channel && byteRange level && byteRange fade
  | .turnOff address channel fade =>
    busAddress address && legalChannel channel && byteRange fade

end Sys2Proof
end

