-- ==== Sys2Proof/Decode.lean ====
section
/-! DEFINITION. The decoder, total on any bytes at any port and rejecting by name, then the encoder, written from the same
tables of the spec (spec/30_encoding.md R60, R61, R71, R72, R73, R76). A word is laid out as bytes with its most significant byte
first, the order in which the spec writes words and the wire carries frames (spec/00_scope.md R8, spec/20_memory.md R42; log 10). -/

namespace Sys2Proof

/-- Why bits at a port are no instruction. -/
inductive DecodeError where
  /-- The number of bytes is not the one the format of the port has. -/
  | wrongLength (port : Port)
  /-- Fourteen bytes at the transmitter that miss a fixed bit of format `REQ` (spec/30_encoding.md R60). -/
  | notRequestFrame
  /-- Four bytes at the receiver that miss a fixed bit of format `ACK` (spec/30_encoding.md R61). -/
  | notAckFrame
  /-- A `cmd` word with a bit above bit 44 set (spec/30_encoding.md R71). -/
  | commandTooWide
  /-- An event code 101, 110 or 111, or a byte that is no 3-bit code: it names no event (spec/30_encoding.md R72). -/
  | noSuchEvent
  /-- An `RX_CHUNK` without bytes (an empty read is not an event, spec/91_not_in_source.md N20). -/
  | emptyChunk
  /-- Data with an event that carries none (spec/30_encoding.md R72). -/
  | dataNotExpected
  /-- A host call whose word is not of the form of `TRANSACT`, or `TURN_OFF` with a level (spec/opcode_table.json). -/
  | notHostCall
  deriving DecidableEq, Repr

/-! ### Words and their bytes -/

/-- The `n` low bytes of a number, most significant first. -/
def bytesOf : Nat → Nat → List Byte
  | 0, _ => []
  | n + 1, w => BitVec.ofNat 8 (w / 256 ^ n) :: bytesOf n w

/-- A 48-bit number from its six bytes, most significant first. -/
def word48 (b5 b4 b3 b2 b1 b0 : Byte) : BitVec 48 := b5 ++ b4 ++ b3 ++ b2 ++ b1 ++ b0

/-- The 45-bit word of six bytes, if the three bits above it are 0. -/
def commandWord (bs : List Byte) (port : Port) : Except DecodeError (BitVec 45) :=
  match bs with
  | [b5, b4, b3, b2, b1, b0] =>
    let w := word48 b5 b4 b3 b2 b1 b0
    if w.extractLsb' 45 3 = 0 then .ok (w.setWidth 45) else .error .commandTooWide
  | _ => .error (.wrongLength port)

/-! ### The fields of the 45-bit word, spec/30_encoding.md R71 -/

def fieldOp (w : BitVec 45) : BitVec 2 := w.extractLsb' 43 2
def fieldReg (w : BitVec 45) : BitVec 3 := w.extractLsb' 16 3
def fieldValue (w : BitVec 45) : Half := w.extractLsb' 0 16
def fieldAddress (w : BitVec 45) : Byte := w.extractLsb' 35 8
def fieldChannel (w : BitVec 45) : BitVec 3 := w.extractLsb' 32 3
def fieldLevel (w : BitVec 45) : Half := w.extractLsb' 16 16
def fieldFade (w : BitVec 45) : Half := w.extractLsb' 0 16

/-! ### Decoding, port by port -/

/-- Format `REQ` (spec/30_encoding.md R60): the fixed bytes and the fixed bit 7 of the checksum byte. -/
def decodeRequest (bs : List Byte) : Except DecodeError Instr :=
  match bs with
  | [b0, b1, a, b3, l1, t1, l2, t2, l3, t3, l4, t4, k, b13] =>
    if b0 = 0xFF ∧ b1 = 0xFE ∧ b3 = 0x57 ∧ k.extractLsb' 7 1 = 0 ∧ b13 = 0xFF then
      .ok (.setLevels a l1 t1 l2 t2 l3 t3 l4 t4 (k.setWidth 7))
    else .error .notRequestFrame
  | _ => .error (.wrongLength .wireOut)

/-- Format `ACK` (spec/30_encoding.md R61). -/
def decodeAck (bs : List Byte) : Except DecodeError Instr :=
  match bs with
  | [b0, a, b2, b3] =>
    if b0 = 0xFE ∧ b2 = 0x06 ∧ b3 = 0xFF then .ok (.ack a) else .error .notAckFrame
  | _ => .error (.wrongLength .wireIn)

/-- The command of a 45-bit word (spec/30_encoding.md R71). Ignored bits are ignored. -/
def decodeCommandWord (w : BitVec 45) : Instr :=
  match (fieldOp w).toNat with
  | 0 => .connect
  | 1 => .cfgwr (fieldReg w) (fieldValue w)
  | 2 => .transact (fieldAddress w) (fieldChannel w) (fieldLevel w) (fieldFade w)
  | _ => .cmdReserved

/-- The `cmd` port. -/
def decodeCommand (bs : List Byte) : Except DecodeError Instr :=
  match commandWord bs .cmd with
  | .ok w => .ok (decodeCommandWord w)
  | .error e => .error e

/-- An event without data. -/
def plainEvent (i : Instr) (data : List Byte) : Except DecodeError Instr :=
  match data with
  | [] => .ok i
  | _ :: _ => .error .dataNotExpected

/-- The event signals: the code in one byte, then the bytes of a chunk (spec/30_encoding.md R72). -/
def decodeEvent (bs : List Byte) : Except DecodeError Instr :=
  match bs with
  | [] => .error (.wrongLength .event)
  | code :: data =>
    match code.toNat with
    | 0 => plainEvent .tick data
    | 1 =>
      match data with
      | b :: rest => .ok (.rxChunk { first := b, rest := rest })
      | [] => .error .emptyChunk
    | 2 => plainEvent .rxErr data
    | 3 => plainEvent .txAccept data
    | 4 => plainEvent .txErr data
    | _ => .error .noSuchEvent

/-- A call of `set` (spec/30_encoding.md R76; spec/opcode_table.json row `SET`). -/
def decodeSetCall (bs : List Byte) : Except DecodeError Instr :=
  match commandWord bs .setCall with
  | .error e => .error e
  | .ok w =>
    if fieldOp w = 2 then .ok (.set (fieldAddress w) (fieldChannel w) (fieldLevel w) (fieldFade w))
    else .error .notHostCall

/-- A call of `turn_off` (spec/30_encoding.md R76; spec/opcode_table.json row `TURN_OFF`, whose level bits are 0). -/
def decodeTurnOffCall (bs : List Byte) : Except DecodeError Instr :=
  match commandWord bs .turnOffCall with
  | .error e => .error e
  | .ok w =>
    if fieldOp w = 2 ∧ fieldLevel w = 0 then .ok (.turnOff (fieldAddress w) (fieldChannel w) (fieldFade w))
    else .error .notHostCall

/-- The decoder: the instruction that bytes at a port are, or the name of what is wrong with them. -/
def decode (port : Port) (bs : List Byte) : Except DecodeError Instr :=
  match port with
  | .cmd => decodeCommand bs
  | .event => decodeEvent bs
  | .wireOut => decodeRequest bs
  | .wireIn => decodeAck bs
  | .setCall => decodeSetCall bs
  | .turnOffCall => decodeTurnOffCall bs

/-! ### Words of the opcode table -/

/-- The port and the bytes of an instruction whose bits the opcode table numbers as `w`: bit 0 is the least significant bit of the
word (spec/30_encoding.md R60, R61, R71). The bits above `nbits` are 0: an `RX_CHUNK` then carries the one byte 0. A word of `SET` or
`TURN_OFF` is a word of `TRANSACT` (spec/30_encoding.md R76; log 9). -/
def tableSignal (nbits w : Nat) : Option (Port × List Byte) :=
  match nbits with
  | 112 => some (.wireOut, bytesOf 14 w)
  | 32 => some (.wireIn, bytesOf 4 w)
  | 45 => some (.cmd, bytesOf 6 w)
  | 48 => some (.cmd, bytesOf 6 w)
  | 3 => some (.event, bytesOf 1 w ++ (if w = 1 then [0] else []))
  | 8 => some (.event, bytesOf 1 w ++ (if w = 1 then [0] else []))
  | _ => none

/-- The instruction the decoder reads from a word of the opcode table. -/
def decodeTableWord (nbits w : Nat) : Option Instr :=
  match tableSignal nbits w with
  | none => none
  | some (port, bs) =>
    match decode port bs with
    | .ok i => some i
    | .error _ => none

/-! ### Encoding -/

/-- The word of `CONNECT`; ignored bits as 0. -/
def wordConnect : BitVec 45 := 0#45

/-- `01`, 24 ignored bits, `rrr`, 16 `v` (spec/30_encoding.md R71). -/
def wordCfgwr (reg : BitVec 3) (value : Half) : BitVec 45 := 1#2 ++ 0#24 ++ reg ++ value

/-- `10`, 8 `a`, 3 `c`, 16 `l`, 16 `f` (spec/30_encoding.md R71). -/
def wordTransact (address : Byte) (channel : BitVec 3) (level fade : Half) : BitVec 45 :=
  2#2 ++ address ++ channel ++ level ++ fade

/-- `11`, then ignored bits as 0. -/
def wordReserved : BitVec 45 := 3#2 ++ 0#43

/-- The six bytes of a `cmd` word, the three bits above it 0. -/
def bytesOfWord (w : BitVec 45) : List Byte :=
  let v : BitVec 48 := w.setWidth 48
  [v.extractLsb' 40 8, v.extractLsb' 32 8, v.extractLsb' 24 8, v.extractLsb' 16 8, v.extractLsb' 8 8, v.extractLsb' 0 8]

/-- The port an instruction reaches the machine at. -/
def portOf : Instr → Port
  | .setLevels _ _ _ _ _ _ _ _ _ _ => .wireOut
  | .ack _ => .wireIn
  | .connect => .cmd
  | .cfgwr _ _ => .cmd
  | .transact _ _ _ _ => .cmd
  | .cmdReserved => .cmd
  | .tick => .event
  | .rxChunk _ => .event
  | .rxErr => .event
  | .txAccept => .event
  | .txErr => .event
  | .set _ _ _ _ => .setCall
  | .turnOff _ _ _ => .turnOffCall

/-- The encoder: the bytes of an instruction at its port. -/
def encode : Instr → List Byte
  | .setLevels addr l1 t1 l2 t2 l3 t3 l4 t4 cks =>
    [0xFF, 0xFE, addr, 0x57, l1, t1, l2, t2, l3, t3, l4, t4, cks.setWidth 8, 0xFF]
  | .ack addr => [0xFE, addr, 0x06, 0xFF]
  | .connect => bytesOfWord wordConnect
  | .cfgwr reg value => bytesOfWord (wordCfgwr reg value)
  | .transact address channel level fade => bytesOfWord (wordTransact address channel level fade)
  | .cmdReserved => bytesOfWord wordReserved
  | .tick => [0]
  | .rxChunk c => 1 :: c.first :: c.rest
  | .rxErr => [2]
  | .txAccept => [3]
  | .txErr => [4]
  | .set address channel level fade => bytesOfWord (wordTransact address channel level fade)
  | .turnOff address channel fade => bytesOfWord (wordTransact address channel 0 fade)

end Sys2Proof
end

