-- ==== Sys2Proof/Machine/State.lean ====
section
/-! DEFINITION. The state of the machine, as plain data: the block's thirteen registers (spec/10_state.md R10), the ports around it
(R32), and the reference host (spec/43_host_controller.md R170); the reasons a step can stop; and the state after reset. -/

namespace Sys2Proof.Machine

open Sys2Proof

/-- `PHASE`, where the sequencer stands (spec/10_state.md R13). -/
inductive Phase where
  | idle
  | flushing
  | writing
  | awaiting
  deriving DecidableEq, Repr

/-- `RESULT`, the outcome of the last command (spec/10_state.md R16). -/
inductive Result where
  | none
  | matched
  | noAckTimeout
  | writeFailed
  | readError
  | linkUnavailable
  | badChannel
  | badCommand
  deriving DecidableEq, Repr

/-- The receive buffer as cells: index and byte, indices rising from 0 without a gap, index 0 the oldest byte held (spec/20_memory.md
R40, R48). An index that is not listed holds no byte (log 11). -/
abbrev Memory := List Host.Cell

/-- The architectural state of the block, exactly the list of spec/10_state.md R10. -/
structure Block where
  /-- `TXF[0..13]`, R11. -/
  txf : Frame
  /-- `ACKP[0..3]`, R12. -/
  ackp : Pattern
  /-- `PHASE`, R13. -/
  phase : Phase
  /-- `TXIDX`, 4 bits, R14. -/
  txIdx : BitVec 4
  /-- `RESULT`, R16. -/
  result : Result
  /-- `LINK_OPEN`, R18. -/
  linkOpen : Bool
  /-- `TMR`, 16 bits, R19. -/
  tmr : Half
  /-- `RXB`, R20. -/
  rxb : Memory
  /-- `CFG_T_TOTAL`, R21. -/
  cfgTTotal : Half
  /-- `CFG_T_CHUNK`, R22. -/
  cfgTChunk : Half
  /-- `CFG_T_FLUSH_WINDOW`, R23. -/
  cfgTFlushWindow : Half
  /-- `CFG_T_FLUSH_READ`, R24. -/
  cfgTFlushRead : Half
  /-- `CFG_MAXBUF`, 13 bits, R25. -/
  cfgMaxBuf : BitVec 13
  deriving DecidableEq, Repr

/-- A host command as it stands on the `cmd` port (spec/30_encoding.md R71). -/
inductive HostCommand where
  | connect
  | cfgwr (reg : BitVec 3) (value : Half)
  | transact (address : Byte) (channel : BitVec 3) (level fade : Half)
  | reserved
  deriving DecidableEq, Repr

/-- A call of the reference host's `set`, with the attempts it has left, the one under way included
(spec/43_host_controller.md R172). -/
structure SetCall where
  address : Byte
  channel : BitVec 3
  level : Half
  fade : Half
  left : Nat
  deriving DecidableEq, Repr

/-- What waits at the `cmd` port: a command of a requester the block does not know (spec/60_exceptions.md R207), or the next
`TRANSACT` of a `SET` call of the reference host (spec/30_encoding.md R76). -/
inductive Request where
  | command (c : HostCommand)
  | attempt (c : SetCall)
  deriving DecidableEq, Repr

/-- What a caller of the reference host may give as transition time (spec/43_host_controller.md R171): nothing, something that is no valid
time (the caller's own judgement, log 20), or a fraction of seconds. -/
inductive FadeInput where
  | missing
  | invalid
  | seconds (num : Int) (den : Nat)
  deriving DecidableEq, Repr

/-- A call of the collaborator above the reference host: "(module_address, channel_index, level, transition_time)"
(spec/43_host_controller.md R178; log 26). -/
structure CollaboratorCall where
  address : Byte
  channel : BitVec 3
  level : Half
  time : FadeInput
  deriving DecidableEq, Repr

/-- What the environment delivers: a reset (spec/70_reset_and_hazards.md R220), a signal at a port, or a call of the collaborator
(spec/43_host_controller.md R178). -/
inductive Input where
  | rst
  | signal (port : Port) (bytes : List Byte)
  | call (c : CollaboratorCall)
  deriving DecidableEq, Repr

/-- The ports of the block (spec/10_state.md R32) and what waits at them (R30, R29). None of this is state of the block. -/
structure Ports where
  /-- What the environment delivers next, in order (log 2). -/
  inputs : List Input
  /-- The chunks waiting in the receive FIFO upstream of the block, oldest first (spec/10_state.md R30, spec/20_memory.md R54). DESIGN
  CHOICE: they keep the boundaries the environment's signals gave them, never merged or split (log 25). -/
  upstream : List Chunk
  /-- The requests waiting at the `cmd` port (spec/42_transaction.md R132). -/
  held : List Request
  /-- The bytes put on the bus so far, oldest first (spec/20_memory.md R47). -/
  sent : List Byte
  /-- The environment's next answers to an attempt to open the link (log 4). -/
  openAnswers : List Bool
  /-- The arbiter's next choices (log 5). -/
  arbiterPicks : List Nat
  /-- How many free values have been taken; the model's own counter (log 3). -/
  draws : Nat
  deriving DecidableEq, Repr

/-- A controller's two cached fields (spec/43_host_controller.md R170). -/
structure CacheEntry where
  isOn : Bool
  brightness : Byte
  deriving DecidableEq, Repr

/-- What a finished `SET` call gives back: success or failure, and the last observed on/off state (spec/43_host_controller.md R172, R178).
After a success that state is the applied one; after a failure it is the cached flag, unchanged (R175; log 26). -/
inductive HostReturn where
  | success (address : Byte) (channel : BitVec 3) (applied : CacheEntry)
  | commandFailed (address : Byte) (channel : BitVec 3) (lastOn : Bool)
  deriving DecidableEq, Repr

/-- The reference host: all controllers of the port (spec/43_host_controller.md R170; spec/60_exceptions.md R207). -/
structure Controllers where
  /-- The call whose attempt holds the block. -/
  running : Option SetCall
  /-- The caches that a success has written, by controller number, numbers strictly rising (log 14). -/
  cache : List (Nat × CacheEntry)
  /-- What finished calls gave back, newest last. -/
  returned : List HostReturn
  /-- `RETRY`. -/
  retryBound : Nat
  deriving DecidableEq, Repr

/-- The state of the machine. -/
structure State extends Block, Ports, Controllers where
  deriving DecidableEq, Repr

/-- Why the machine stops. No rule of the spec stops it: what the spec calls a fault is a result code, and the machine goes on. -/
inductive Fault where
  /-- Raised by `step` alone: the environment presents bits that no port can carry, such as the event codes 101, 110, 111 ("no
  signal can produce them", spec/30_encoding.md R72). Safe: the hardware has no such behaviour (log 10). -/
  | noSuchSignal (why : DecodeError)
  deriving DecidableEq, Repr

/-- Why an instruction is refused. -/
inductive Refusal where
  /-- Raised by `exec` for an instruction that has no meaning yet. Safe. No arm of this model raises it. -/
  | notModelled (mnemonic : String)
  deriving DecidableEq, Repr

/-- The block's registers after a reset (spec/10_state.md R31, spec/70_reset_and_hazards.md R221). `TXF` and `ACKP` hold no value the
spec names: 18 free bytes, taken from number `n` on (log 3). -/
def Block.resetAt (n : Nat) : Block where
  txf := Vector.ofFn fun i => Config.freeByte (n + i.val)
  ackp := Vector.ofFn fun i => Config.freeByte (n + 14 + i.val)
  phase := .idle
  txIdx := 0
  result := .none
  linkOpen := false
  tmr := 0
  rxb := []
  cfgTTotal := Config.resetTTotal
  cfgTChunk := Config.resetTChunk
  cfgTFlushWindow := Config.resetTFlushWindow
  cfgTFlushRead := Config.resetTFlushRead
  cfgMaxBuf := Config.resetMaxBuf

/-- The machine right after the first reset: the block as the spec says, and around it nothing delivered, waiting, sent or cached
(log 2, log 3, log 4, log 5, log 13, log 14, log 17, log 21). -/
def State.reset : State where
  toBlock := Block.resetAt 0
  inputs := []
  upstream := []
  held := []
  sent := []
  openAnswers := []
  arbiterPicks := []
  draws := 18
  running := none
  cache := []
  returned := []
  retryBound := Config.defaultRetry

end Sys2Proof.Machine
end

