-- ==== Sys2Proof/Machine/Ops.lean ====
section
/-! DEFINITION. The shared operations over memory, registers and the environment's answers, and the one way a command or a
transaction ends with a result (spec/60_exceptions.md R196). -/

namespace Sys2Proof.Machine

open Sys2Proof

/-! ### The receive buffer, spec/20_memory.md -/

/-- Cells of a byte sequence, indices from `i` on. -/
def Memory.ofBytesFrom (i : Nat) (bs : List Byte) : Memory :=
  match bs with
  | [] => []
  | b :: rest => (i, b) :: Memory.ofBytesFrom (i + 1) rest

/-- The buffer that holds a byte sequence, oldest byte at index 0. -/
def Memory.ofBytes (bs : List Byte) : Memory := Memory.ofBytesFrom 0 bs

/-- The bytes held, oldest first. -/
def Memory.bytes (m : Memory) : List Byte := m.map Prod.snd

/-- `len(RXB)`. -/
def Memory.len (m : Memory) : Nat := m.length

/-- The canonical form: indices 0, 1, 2, ... in order, so strictly rising and without a gap. No entry can equal what an unlisted index
reads as, since an unlisted index holds no byte (log 11). -/
def Memory.wf (m : Memory) : Bool := m == Memory.ofBytes (Memory.bytes m)

/-- The byte at an index, none where the buffer holds none. -/
def Memory.readByte (m : Memory) (a : Nat) : Option Byte :=
  match m with
  | [] => none
  | (k, b) :: rest => if k = a then some b else Memory.readByte rest a

/-- `MemRead(i, n)`: the `n` bytes from index `i`, defined only when `i + n <= len(RXB)` (spec/00_scope.md R9). -/
def Memory.read (m : Memory) (i n : Nat) : Option (List Byte) :=
  if i + n ≤ Memory.len m then some ((Memory.bytes m).drop i |>.take n) else none

/-- Clear (spec/20_memory.md R53). -/
def Memory.clear : Memory := Memory.ofBytes []

/-- Append a chunk and drop the oldest bytes beyond `n` (spec/20_memory.md R45, R46). -/
def Memory.append (m : Memory) (chunk : List Byte) (n : Nat) : Memory :=
  Memory.ofBytes (keepLast (Memory.bytes m ++ chunk) n)

/-- The bytes of a chunk, in order. -/
def chunkBytes (c : Chunk) : List Byte := c.first :: c.rest

/-! ### Ending with a result, spec/60_exceptions.md R196 -/

/-- `raise F`: the result is recorded, the phase becomes `IDLE`, and nothing else changes. There is no handler, no saved state and
no return (R196, R201). The normal ends `MATCHED` and `NO_ACK_TIMEOUT` use it too. -/
def raise (f : Result) (s : State) : State := { s with result := f, phase := .idle }

/-! ### Answers of the environment -/

/-- Take one free byte. -/
def drawByte (s : State) : Byte × State :=
  (Config.freeByte s.draws, { s with draws := s.draws + 1 })

/-- `draw ok : bool`, the outcome of an attempt to open the link (spec/42_transaction.md R133): the environment's next listed answer,
a free value where none is listed (log 4). -/
def drawOpen (s : State) : Bool × State :=
  match s.openAnswers with
  | ok :: rest => (ok, { s with openAnswers := rest })
  | [] => (Config.linkOpens s.draws, { s with draws := s.draws + 1 })

/-- Which of `n` waiting requests the arbiter presents (spec/60_exceptions.md R208): no choice among one, else the arbiter's next
listed choice, a free value where none is listed (log 5). -/
def drawArbiter (n : Nat) (s : State) : Nat × State :=
  if n ≤ 1 then (0, s)
  else
    match s.arbiterPicks with
    | k :: rest => (k % n, { s with arbiterPicks := rest })
    | [] => (Config.arbiter s.draws % n, { s with draws := s.draws + 1 })

/-- Open the link if it is not open: idempotent, no draw if it is open already, and a failed open leaves it closed
(spec/42_transaction.md R133, R141; spec/60_exceptions.md R191, R206). -/
def openLink (s : State) : Bool × State :=
  if s.linkOpen then (true, s)
  else
    let (ok, s1) := drawOpen s
    (ok, { s1 with linkOpen := ok })

/-! ### Registers -/

/-- Write configuration register `reg`, if the register exists and the value is legal for it (spec/10_state.md R21 to R25,
spec/30_encoding.md R73, spec/42_transaction.md R134). -/
def writeConfig (reg : BitVec 3) (value : Half) (s : State) : Option State :=
  match reg.toNat with
  | 0 => some { s with cfgTTotal := value }
  | 1 => some { s with cfgTChunk := value }
  | 2 => some { s with cfgTFlushWindow := value }
  | 3 => some { s with cfgTFlushRead := value }
  | 4 =>
    if Config.minBuf ≤ value.toNat ∧ value.toNat ≤ Config.maxBufHw then
      some { s with cfgMaxBuf := value.setWidth 13 }
    else none
  | _ => none

/-- `TMR + 1` as an exact count, for the comparison with a compare value (spec/42_transaction.md R145, R153). -/
def nextCount (s : State) : Nat := s.tmr.toNat + 1

/-- One tick of the timer. -/
def countTick (s : State) : State := { s with tmr := s.tmr + 1 }

/-- The byte the block offers to the transmitter, `tx_data = TXF[TXIDX]`, where `TXIDX` is an index of the frame
(spec/10_state.md R32). -/
def offeredByte (s : State) : Option Byte := s.txf.toList[s.txIdx.toNat]?

end Sys2Proof.Machine
end

