-- ==== Sys2Proof/Machine/Flags.lean ====
section
/-! DEFINITION. The codes of `PHASE` and `RESULT`, the outputs that are functions of the state, and the status reads (spec/10_state.md
R13, R16, R17, R27, R32; spec/42_transaction.md R154). None of them changes the state (spec/20_memory.md R47). -/

namespace Sys2Proof.Machine

open Sys2Proof

/-- The code of a phase (spec/10_state.md R13). -/
def phaseCode : Phase → BitVec 2
  | .idle => 0
  | .flushing => 1
  | .writing => 2
  | .awaiting => 3

/-- The code of a result (spec/10_state.md R16). -/
def resultCode : Result → BitVec 3
  | .none => 0
  | .matched => 1
  | .noAckTimeout => 2
  | .writeFailed => 3
  | .readError => 4
  | .linkUnavailable => 5
  | .badChannel => 6
  | .badCommand => 7

/-- `busy`, the lock (spec/10_state.md R17). -/
def busy (s : State) : Bool := s.phase != .idle

/-- `done` (spec/10_state.md R17). -/
def done (s : State) : Bool := s.phase == .idle && s.result != .none

/-- `matched` (spec/10_state.md R17). -/
def matched (s : State) : Bool := s.result == .matched

/-- `cmd_ready` (spec/10_state.md R32). -/
def cmdReady (s : State) : Bool := s.phase == .idle

/-- `tx_valid` (spec/10_state.md R32). -/
def txValid (s : State) : Bool := s.phase == .writing

/-- `rx_ready` (spec/10_state.md R32). -/
def rxReady (s : State) : Bool := s.phase == .flushing || s.phase == .awaiting

/-- What the status port shows (spec/10_state.md R27, R32). -/
structure Status where
  busy : Bool
  done : Bool
  matched : Bool
  result : BitVec 3
  phase : BitVec 2
  txIdx : BitVec 4
  tmr : Half
  linkOpen : Bool
  rxbLen : Nat
  deriving DecidableEq, Repr

/-- A read of the status port. -/
def status (s : State) : Status where
  busy := busy s
  done := done s
  matched := matched s
  result := resultCode s.result
  phase := phaseCode s.phase
  txIdx := s.txIdx
  tmr := s.tmr
  linkOpen := s.linkOpen
  rxbLen := Memory.len s.rxb

/-- A read of configuration register `reg`, none for a reserved index (spec/10_state.md R26, spec/30_encoding.md R73). -/
def readConfig (reg : BitVec 3) (s : State) : Option Half :=
  match reg.toNat with
  | 0 => some s.cfgTTotal
  | 1 => some s.cfgTChunk
  | 2 => some s.cfgTFlushWindow
  | 3 => some s.cfgTFlushRead
  | 4 => some (s.cfgMaxBuf.setWidth 16)
  | _ => none

/-- A host's read of `RXB` (spec/00_scope.md R9). -/
def memRead (i n : Nat) (s : State) : Option (List Byte) := Memory.read s.rxb i n

/-- The source's return value `(accumulated_bytes, matched)` of a finished transaction: none while busy, and none for an outcome that
gives an error in place of the pair (spec/42_transaction.md R154). -/
def transactReturn (s : State) : Option (List Byte × Bool) :=
  match s.phase, s.result with
  | .idle, .matched => some (Memory.bytes s.rxb, true)
  | .idle, .noAckTimeout => some (Memory.bytes s.rxb, false)
  | _, _ => none

end Sys2Proof.Machine
end

