-- ==== Sys2Proof/Machine/Operands.lean ====
section
/-! DEFINITION. Operand forms: how a command of the `cmd` port and the operands of the reference host are read
(spec/30_encoding.md R63, R71; spec/40_frame_encode.md R92; spec/43_host_controller.md R171). -/

namespace Sys2Proof.Machine

open Sys2Proof

/-- The frame of a `TRANSACT`, from its port operands (spec/40_frame_encode.md R92, R94): none for a channel outside 1..4 (R99). -/
def operandFrame (address : Byte) (channel : BitVec 3) (level fade : Half) : Option Frame :=
  match channelOf channel with
  | some ch => some (encodeSet address ch (sext16 level) (sext16 fade))
  | none => none

/-- The frame register's value for the fields of a whole request frame (spec/30_encoding.md R60). -/
def fieldsFrame (addr l1 t1 l2 t2 l3 t3 l4 t4 : Byte) (cks : BitVec 7) : Frame :=
  requestFrame addr #v[l1, t1, l2, t2, l3, t3, l4, t4] (cks.setWidth 8)

/-- The four bytes of an acknowledgement frame, taken by the receiver as one chunk (spec/30_encoding.md R61; log 8). -/
def ackChunk (addr : Byte) : Chunk :=
  { first := Config.start, rest := [addr, Config.ackCode, Config.stop] }

/-- `NORM_FADE(x)` (spec/43_host_controller.md R171): truncated toward zero and clamped to 0..255; 5 for a missing or invalid value. A
fraction over 0 is no number, so invalid. -/
def normFade (x : FadeInput) : Byte :=
  match x with
  | .missing => Config.defaultFade
  | .invalid => Config.defaultFade
  | .seconds _ 0 => Config.defaultFade
  | .seconds num (d + 1) => clamp (num.tdiv (d + 1))

/-- A byte as a 16-bit operand. -/
def operandOfByte (b : Byte) : Half := b.setWidth 16

/-- The `SET` of a call of the collaborator: its transition time goes through `NORM_FADE` (spec/43_host_controller.md R171, R172, R178). -/
def callInstr (c : CollaboratorCall) : Instr :=
  .set c.address c.channel c.level (operandOfByte (normFade c.time))

end Sys2Proof.Machine
end

