-- ==== Sys2Proof/Machine/Sequencer.lean ====
section
/-! DEFINITION. The transition table of the sequencer (spec/42_transaction.md R130) as operations on the state, one per command and
event. A pair of a phase and an event that is not in the table leaves the block as it is (R131; log 6). -/

namespace Sys2Proof.Machine

open Sys2Proof

/-! ### Commands, accepted in `IDLE` (spec/42_transaction.md R132) -/

/-- Acceptance of `CONNECT` (spec/42_transaction.md R133). -/
def acceptConnect (s : State) : State :=
  let (ok, s1) := openLink s
  if ok then { s1 with result := .none } else raise .linkUnavailable s1

/-- Acceptance of `CFGWR reg, value` (spec/42_transaction.md R134). -/
def acceptCfgwr (reg : BitVec 3) (value : Half) (s : State) : State :=
  match writeConfig reg value s with
  | some s1 => { s1 with result := .none }
  | none => raise .badCommand s

/-- Acceptance of the reserved command code (spec/42_transaction.md R135). -/
def acceptReserved (s : State) : State := raise .badCommand s

/-- Steps (3) to (5) of the acceptance of `TRANSACT`: latch the frame and the pattern, clear, and enter the first phase
(spec/42_transaction.md R141). -/
def startTransaction (frame : Frame) (pattern : Pattern) (s : State) : State :=
  { s with
    txf := frame
    ackp := pattern
    txIdx := 0
    rxb := Memory.clear
    tmr := 0
    result := .none
    phase := if s.cfgTFlushWindow = 0 then .writing else .flushing }

/-- Acceptance of `TRANSACT` (spec/42_transaction.md R141): the channel is checked before the link is opened (spec/60_exceptions.md
R200). -/
def acceptTransact (address : Byte) (channel : BitVec 3) (level fade : Half) (s : State) : State :=
  match operandFrame address channel level fade with
  | none => raise .badChannel s
  | some frame =>
    let (ok, s1) := openLink s
    if ok then startTransaction frame (expectedAck address) s1 else raise .linkUnavailable s1

/-- Acceptance of a command word (spec/30_encoding.md R71). -/
def acceptCommand (c : HostCommand) (s : State) : State :=
  match c with
  | .connect => acceptConnect s
  | .cfgwr reg value => acceptCfgwr reg value s
  | .transact address channel level fade => acceptTransact address channel level fade s
  | .reserved => acceptReserved s

/-! ### The time base -/

/-- `TICK` in `FLUSHING` (spec/42_transaction.md R145). -/
def tickFlushing (s : State) : State :=
  if nextCount s ≥ s.cfgTFlushWindow.toNat then { countTick s with phase := .writing } else countTick s

/-- `TICK` in `AWAITING` (spec/42_transaction.md R153). -/
def tickAwaiting (s : State) : State :=
  if nextCount s ≥ s.cfgTTotal.toNat then raise .noAckTimeout (countTick s) else countTick s

/-- `TICK` in any phase; none in `IDLE` and `WRITING` (spec/42_transaction.md R149, R155). -/
def tickBlock (s : State) : State :=
  match s.phase with
  | .idle => s
  | .flushing => tickFlushing s
  | .writing => s
  | .awaiting => tickAwaiting s

/-! ### The receive side -/

/-- A chunk in `AWAITING` (spec/42_transaction.md R151): append, truncate, test, in one step. -/
def receiveAwaiting (bytes : List Byte) (s : State) : State :=
  let s1 := { s with rxb := Memory.append s.rxb bytes s.cfgMaxBuf.toNat }
  if containsAck (Memory.bytes s1.rxb) s1.ackp then raise .matched s1 else s1

/-- A chunk at the receiver: discarded in `FLUSHING` (spec/42_transaction.md R143), taken in `AWAITING` (R151); in `IDLE` and `WRITING`
the block does not take it and it waits upstream (spec/20_memory.md R54). DESIGN CHOICE (log 25): it waits as the one chunk the
environment signalled, and is delivered with the same boundaries when the block next reads; the spec leaves the chunking open (R45). -/
def receiveChunk (c : Chunk) (s : State) : State :=
  match s.phase with
  | .idle => { s with upstream := s.upstream ++ [c] }
  | .flushing => s
  | .writing => { s with upstream := s.upstream ++ [c] }
  | .awaiting => receiveAwaiting (chunkBytes c) s

/-- An error of the receiver (spec/42_transaction.md R144, R152); ignored where no read is outstanding (R131). -/
def receiveError (s : State) : State :=
  match s.phase with
  | .idle => s
  | .flushing => raise .readError s
  | .writing => s
  | .awaiting => raise .readError s

/-! ### The transmit side -/

/-- The end of the write (spec/42_transaction.md R147): the deadline clock starts, or the transaction ends at once with a zero
time-out. -/
def endWrite (s : State) : State :=
  if s.cfgTTotal.toNat > 0 then { s with tmr := 0, phase := .awaiting }
  else raise .noAckTimeout { s with tmr := 0 }

/-- The transmitter takes the byte the block offers (spec/42_transaction.md R146, R147); where the block offers none, no transfer takes
place (R131; log 22 for a `TXIDX` above 13 in `WRITING`). -/
def transmitByte (s : State) : State :=
  match s.phase, offeredByte s with
  | .writing, some b =>
    let s1 := { s with sent := s.sent ++ [b], txIdx := s.txIdx + 1 }
    if s.txIdx.toNat < 13 then s1 else endWrite s1
  | _, _ => s

/-- The transmitter takes a whole frame, the fourteen transfers as one step (spec/42_transaction.md R158). The frame on the wire is the one
the block offers, from its first byte; where the block offers another or none, this is no step of the block (log 7). -/
def transmitFrame (frame : Frame) (s : State) : State :=
  if s.phase = .writing ∧ s.txIdx = 0 ∧ s.txf = frame then
    endWrite { s with sent := s.sent ++ frame.toList, txIdx := 14 }
  else s

/-- An error of the transmitter (spec/42_transaction.md R148); ignored where no write is outstanding (R131). -/
def transmitError (s : State) : State :=
  match s.phase with
  | .idle => s
  | .flushing => s
  | .writing => raise .writeFailed s
  | .awaiting => s

/-! ### Reset -/

/-- `rst` (spec/70_reset_and_hazards.md R220 to R222): the block's registers take their reset values in any phase, and what is outside
the block stays: bytes sent, bytes waiting upstream, commands waiting at the port. `TXF` and `ACKP` take fresh free bytes (log 3). -/
def resetBlock (s : State) : State :=
  { s with toBlock := Block.resetAt s.draws, draws := s.draws + 18 }

end Sys2Proof.Machine
end

