-- ==== Sys2Proof/Machine/Requests.lean ====
section
/-! DEFINITION. The `cmd` port under contention, and the reference host around it (spec/42_transaction.md R132; spec/60_exceptions.md R207,
R208; spec/43_host_controller.md R170 to R177). -/

namespace Sys2Proof.Machine

open Sys2Proof

/-! ### The controllers' caches, spec/43_host_controller.md R170 -/

/-- The number of the controller of an address and a channel. -/
def controllerKey (address : Byte) (channel : BitVec 3) : Nat := address.toNat * 8 + channel.toNat

/-- What a controller no success has written yet holds: open parameters (log 14). -/
def initialEntry (address : Byte) (channel : BitVec 3) : CacheEntry where
  isOn := Config.initIsOn address channel
  brightness := Config.initBrightness address channel

/-- The entry under a key, if one is listed. -/
def cacheFind (key : Nat) (cache : List (Nat × CacheEntry)) : Option CacheEntry :=
  match cache with
  | [] => none
  | (k, e) :: rest => if k = key then some e else cacheFind key rest

/-- Write an entry, keys staying strictly rising. -/
def cachePut (key : Nat) (e : CacheEntry) (cache : List (Nat × CacheEntry)) : List (Nat × CacheEntry) :=
  match cache with
  | [] => [(key, e)]
  | (k, e') :: rest =>
    if key < k then (key, e) :: (k, e') :: rest
    else if key = k then (key, e) :: rest
    else (k, e') :: cachePut key e rest

/-- The canonical form of the caches: keys strictly rising. -/
def cacheWf (cache : List (Nat × CacheEntry)) : Bool :=
  match cache with
  | [] => true
  | [_] => true
  | (k, _) :: (k', e') :: rest => k < k' && cacheWf ((k', e') :: rest)

/-- `CURRENT_STATE` (spec/43_host_controller.md R177): the two cached fields; no command is issued. -/
def currentState (address : Byte) (channel : BitVec 3) (s : State) : CacheEntry :=
  (cacheFind (controllerKey address channel) s.cache).getD (initialEntry address channel)

/-! ### The end of an attempt, spec/43_host_controller.md R172 to R175 -/

/-- The brightness a success caches: the commanded level. For a level outside 0..255 the spec states none, and it is a free byte
(spec/91_not_in_source.md N22; log 15). -/
def cachedBrightness (level : Half) (s : State) : Byte × State :=
  if 0 ≤ sext16 level ∧ sext16 level ≤ 255 then (BitVec.ofInt 8 (sext16 level), s) else drawByte s

/-- The entry a success caches (spec/43_host_controller.md R174): on if the commanded level is above 0. -/
def appliedEntry (level : Half) (s : State) : CacheEntry × State :=
  let (b, s1) := cachedBrightness level s
  ({ isOn := decide (sext16 level > 0), brightness := b }, s1)

/-- A `SET` call succeeds (spec/43_host_controller.md R174). -/
def succeed (c : SetCall) (s : State) : State :=
  let (e, s1) := appliedEntry c.level s
  { s1 with
    running := none
    cache := cachePut (controllerKey c.address c.channel) e s1.cache
    returned := s1.returned ++ [.success c.address c.channel e] }

/-- What a failed call on a controller gives back: `CommandFailed` and the on/off state last observed, which is the cached one
(spec/43_host_controller.md R175, R178). -/
def failedCall (address : Byte) (channel : BitVec 3) (s : State) : HostReturn :=
  .commandFailed address channel (currentState address channel s).isOn

/-- A `SET` call has used up its attempts: `CommandFailed`, cache unchanged (spec/43_host_controller.md R175). -/
def giveUp (c : SetCall) (s : State) : State :=
  { s with running := none, returned := s.returned ++ [failedCall c.address c.channel s] }

/-- An attempt failed (spec/43_host_controller.md R173): the next one is issued if any is left, behind what waits already (log 23). -/
def attemptFailed (c : SetCall) (s : State) : State :=
  if c.left ≤ 1 then giveUp c s
  else { s with running := none, held := s.held ++ [.attempt { c with left := c.left - 1 }] }

/-- The reference host reads the result of its call's attempt as soon as the phase is `IDLE` again, before any other command is
presented (spec/70_reset_and_hazards.md R231; spec/43_host_controller.md R172). -/
def settle (s : State) : State :=
  match s.running, s.phase with
  | some c, .idle => if s.result = .matched then succeed c s else attemptFailed c s
  | _, _ => s

/-! ### The `cmd` port -/

/-- The instruction a command word on the port is (spec/30_encoding.md R71). -/
def instrOfCommand (c : HostCommand) : Instr :=
  match c with
  | .connect => .connect
  | .cfgwr reg value => .cfgwr reg value
  | .transact address channel level fade => .transact address channel level fade
  | .reserved => .cmdReserved

/-- Acceptance of a request. An attempt of a `SET` call is a `TRANSACT` whose result the host waits for. -/
def acceptRequest (r : Request) (s : State) : State :=
  match r with
  | .command c => acceptCommand c s
  | .attempt c => { acceptTransact c.address c.channel c.level c.fade s with running := some c }

/-- A request is presented at the port: accepted in `IDLE`, else held there with its operands unchanged (spec/42_transaction.md R132). -/
def submit (r : Request) (s : State) : State :=
  match s.phase with
  | .idle => acceptRequest r s
  | .flushing => { s with held := s.held ++ [r] }
  | .writing => { s with held := s.held ++ [r] }
  | .awaiting => { s with held := s.held ++ [r] }

/-- Request `k` of those waiting is presented in `IDLE`, and accepted (spec/42_transaction.md R132). -/
def presentAt (k : Nat) (s : State) : State :=
  match s.held[k]? with
  | some r => acceptRequest r { s with held := s.held.eraseIdx k }
  | none => s

/-- In `IDLE` the arbiter presents one of the waiting requests (spec/42_transaction.md R132; spec/60_exceptions.md R208). -/
def presentHeld (s : State) : State :=
  let (k, s1) := drawArbiter s.held.length s
  presentAt k s1

/-- A call of `set` (spec/43_host_controller.md R172): up to `RETRY` attempts; none at all if `RETRY` is 0. -/
def startCall (address : Byte) (channel : BitVec 3) (level fade : Half) (s : State) : State :=
  let c : SetCall := { address := address, channel := channel, level := level, fade := fade, left := s.retryBound }
  if s.retryBound = 0 then { s with returned := s.returned ++ [failedCall address channel s] }
  else submit (.attempt c) s

end Sys2Proof.Machine
end

