-- ==== Sys2Proof/Machine/Commands.lean ====
section
/-! DEFINITION. The meanings of the host commands (spec/42_transaction.md, section 2): accepted in `IDLE`, held at the port otherwise. -/

namespace Sys2Proof.Machine

open Sys2Proof

/-- `CONNECT` (spec/42_transaction.md R133). -/
def execConnect (s : State) : Host.Outcome State Fault Refusal :=
  .next (submit (.command .connect) s)

/-- `CFGWR reg, value` (spec/42_transaction.md R134). -/
def execCfgwr (reg : BitVec 3) (value : Half) (s : State) : Host.Outcome State Fault Refusal :=
  .next (submit (.command (.cfgwr reg value)) s)

/-- `TRANSACT address, channel, level, fade` (spec/42_transaction.md R141). -/
def execTransact (address : Byte) (channel : BitVec 3) (level fade : Half) (s : State) : Host.Outcome State Fault Refusal :=
  .next (submit (.command (.transact address channel level fade)) s)

/-- The reserved command code (spec/42_transaction.md R135). -/
def execCmdReserved (s : State) : Host.Outcome State Fault Refusal :=
  .next (submit (.command .reserved) s)

end Sys2Proof.Machine
end

