-- ==== Sys2Proof/Machine/Events.lean ====
section
/-! DEFINITION. The meanings of the events (spec/42_transaction.md, sections 3 to 5), and the order in which a clocked build serialises
events of one cycle (spec/60_exceptions.md R199). -/

namespace Sys2Proof.Machine

open Sys2Proof

/-- `TICK` (spec/42_transaction.md R145, R149, R153, R155). -/
def execTick (s : State) : Host.Outcome State Fault Refusal := .next (tickBlock s)

/-- `RX_CHUNK(bytes)` (spec/42_transaction.md R143, R151; spec/20_memory.md R54). -/
def execRxChunk (c : Chunk) (s : State) : Host.Outcome State Fault Refusal := .next (receiveChunk c s)

/-- `RX_ERR` (spec/42_transaction.md R144, R152). -/
def execRxErr (s : State) : Host.Outcome State Fault Refusal := .next (receiveError s)

/-- `TX_ACCEPT` (spec/42_transaction.md R146, R147). -/
def execTxAccept (s : State) : Host.Outcome State Fault Refusal := .next (transmitByte s)

/-- `TX_ERR` (spec/42_transaction.md R148). -/
def execTxErr (s : State) : Host.Outcome State Fault Refusal := .next (transmitError s)

/-! ### Events of one cycle, spec/60_exceptions.md R199 -/

/-- The place of an event among the events of one cycle: chunk, receiver error, transmitter error, transfer, tick. In `FLUSHING` and
`AWAITING` the rule orders `RX_CHUNK`, `RX_ERR`, `TICK`; in `WRITING` it orders `TX_ERR`, `TX_ACCEPT`; where it orders no pair, the
place is the model's (log 19). -/
def eventRank : Instr → Nat
  | .rxChunk _ => 0
  | .rxErr => 1
  | .txErr => 2
  | .txAccept => 3
  | .tick => 4
  | .setLevels _ _ _ _ _ _ _ _ _ _ => 3
  | .ack _ => 0
  | .connect => 5
  | .cfgwr _ _ => 5
  | .transact _ _ _ _ => 5
  | .cmdReserved => 5
  | .set _ _ _ _ => 5
  | .turnOff _ _ _ => 5

/-- Put an event into a serialised list, before the first of a later place. -/
def insertEvent (i : Instr) (sorted : List Instr) : List Instr :=
  match sorted with
  | [] => [i]
  | j :: rest => if eventRank i ≤ eventRank j then i :: j :: rest else j :: insertEvent i rest

/-- The order in which the events of one cycle are consumed. -/
def serialise (events : List Instr) : List Instr := events.foldr insertEvent []

end Sys2Proof.Machine
end

