-- ==== Sys2Proof/Machine/HostOps.lean ====
section
/-! DEFINITION. The meanings of the reference host's pseudo-operations (spec/43_host_controller.md R172, R176; spec/30_encoding.md R76). Each
starts a call; the attempts that follow the first are presented by `step` (`settle`, `presentHeld`). -/

namespace Sys2Proof.Machine

open Sys2Proof

/-- `SET level, fade` on the controller of `address` and `channel` (spec/43_host_controller.md R172; log 9, log 24). -/
def execSet (address : Byte) (channel : BitVec 3) (level fade : Half) (s : State) : Host.Outcome State Fault Refusal :=
  .next (startCall address channel level fade s)

/-- `TURN_OFF fade`, that is `SET 0, fade` (spec/43_host_controller.md R176). -/
def execTurnOff (address : Byte) (channel : BitVec 3) (fade : Half) (s : State) : Host.Outcome State Fault Refusal :=
  .next (startCall address channel 0 fade s)

end Sys2Proof.Machine
end

