-- ==== Sys2Proof/Machine/Wire.lean ====
section
/-! DEFINITION. The meanings of the two wire frames: a request frame leaving the block and an acknowledgement frame reaching it
(spec/30_encoding.md R60 to R62). -/

namespace Sys2Proof.Machine

open Sys2Proof

/-- `SET_LEVELS`: the whole frame goes on the bus (spec/42_transaction.md R158; spec/30_encoding.md R62; log 7). -/
def execSetLevels (addr l1 t1 l2 t2 l3 t3 l4 t4 : Byte) (cks : BitVec 7) (s : State) : Host.Outcome State Fault Refusal :=
  .next (transmitFrame (fieldsFrame addr l1 t1 l2 t2 l3 t3 l4 t4 cks) s)

/-- `ACK`: the frame of the module `addr` arrives, its four bytes as one chunk; it is recognised only as bytes of `RXB`
(spec/30_encoding.md R61, R66; spec/41_ack_detect.md R110; log 8). -/
def execAck (addr : Byte) (s : State) : Host.Outcome State Fault Refusal :=
  .next (receiveChunk (ackChunk addr) s)

end Sys2Proof.Machine
end

