-- ==== Sys2Proof/Machine/Dispatch.lean ====
section
/-! DEFINITION. One arm per constructor of `Instr`, one per row of spec/opcode_table.json. -/

namespace Sys2Proof.Machine

open Sys2Proof

def exec (i : Instr) (s : State) : Host.Outcome State Fault Refusal :=
  match i with
  | .setLevels addr l1 t1 l2 t2 l3 t3 l4 t4 cks => Sys2Proof.Machine.execSetLevels addr l1 t1 l2 t2 l3 t3 l4 t4 cks s
  | .ack addr => Sys2Proof.Machine.execAck addr s
  | .connect => Sys2Proof.Machine.execConnect s
  | .cfgwr reg value => Sys2Proof.Machine.execCfgwr reg value s
  | .transact address channel level fade => Sys2Proof.Machine.execTransact address channel level fade s
  | .cmdReserved => Sys2Proof.Machine.execCmdReserved s
  | .tick => Sys2Proof.Machine.execTick s
  | .rxChunk chunk => Sys2Proof.Machine.execRxChunk chunk s
  | .rxErr => Sys2Proof.Machine.execRxErr s
  | .txAccept => Sys2Proof.Machine.execTxAccept s
  | .txErr => Sys2Proof.Machine.execTxErr s
  | .set address channel level fade => Sys2Proof.Machine.execSet address channel level fade s
  | .turnOff address channel fade => Sys2Proof.Machine.execTurnOff address channel fade s

end Sys2Proof.Machine
end

