-- ==== Sys2Proof/Machine/Fetch.lean ====
section
/-! DEFINITION. What moves next, and what a step does around `exec` (log 1): a reset first, then in `IDLE` a request waiting at the port, for
which a request that arrives now contends, then a chunk waiting upstream when the block reads, with the boundaries it arrived with
(log 25), then the environment's next input. -/

namespace Sys2Proof.Machine

open Sys2Proof

/-- What moves next. -/
inductive Move where
  /-- The arbiter presents a waiting request (spec/42_transaction.md R132). -/
  | present
  /-- The arbiter chooses between the waiting requests and one that arrives now (spec/60_exceptions.md R208). -/
  | contend
  /-- The receiver delivers its oldest waiting chunk (spec/20_memory.md R54). -/
  | deliver (c : Chunk) (upstream : List Chunk)
  /-- The environment's next input: a reset (spec/70_reset_and_hazards.md R220), a signal or a call; nothing if nothing is delivered. -/
  | input
  deriving DecidableEq, Repr

/-- The ports at which a requester presents a command or a host call (spec/60_exceptions.md R207). -/
def isRequestPort (port : Port) : Bool :=
  match port with
  | .cmd => true
  | .event => false
  | .wireOut => false
  | .wireIn => false
  | .setCall => true
  | .turnOffCall => true

/-- The environment's next input is a request of some requester (spec/60_exceptions.md R207, spec/43_host_controller.md R178). -/
def requestArrives (inputs : List Input) : Bool :=
  match inputs with
  | .signal port _ :: _ => isRequestPort port
  | .call _ :: _ => true
  | .rst :: _ => false
  | [] => false

/-- Which of the movers goes. -/
def nextMove (s : State) : Move :=
  match s.inputs with
  | .rst :: _ => .input
  | inputs =>
    match s.phase, s.held, s.upstream with
    | .idle, _ :: _, _ => if requestArrives inputs then .contend else .present
    | .flushing, _, c :: upstream => .deliver c upstream
    | .awaiting, _, c :: upstream => .deliver c upstream
    | _, _, _ => .input

/-- After every move the reference host looks at its call (spec/43_host_controller.md R172; log 23). -/
def settleOutcome (o : Host.Outcome State Fault Refusal) : Host.Outcome State Fault Refusal :=
  match o with
  | .next s => .next (settle s)
  | .fault f => .fault f
  | .refused r => .refused r

/-- Run the instruction that a signal's bytes are. -/
def runSignal (port : Port) (bytes : List Byte) (s : State) : Host.Outcome State Fault Refusal :=
  match decode port bytes with
  | .ok i => settleOutcome (exec i s)
  | .error e => .fault (.noSuchSignal e)

/-- Take the environment's next input. Without one nothing changes: the block has no step of its own (spec/00_scope.md, section 5). -/
def runInput (s : State) : Host.Outcome State Fault Refusal :=
  match s.inputs with
  | .rst :: rest => .next (settle (resetBlock { s with inputs := rest }))
  | .signal port bytes :: rest => runSignal port bytes { s with inputs := rest }
  | .call c :: rest => settleOutcome (exec (callInstr c) { s with inputs := rest })
  | [] => .next s

/-- A request that arrives in `IDLE` while others wait contends with them: the arbiter presents one of the waiting ones, the arriving one
staying for the next step, or the arriving one (spec/60_exceptions.md R208; spec/43_host_controller.md R172; log 5). -/
def contend (s : State) : Host.Outcome State Fault Refusal :=
  let (k, s1) := drawArbiter (s.held.length + 1) s
  if k < s1.held.length then .next (settle (presentAt k s1)) else runInput s1

/-- Make a move. -/
def runMove (m : Move) (s : State) : Host.Outcome State Fault Refusal :=
  match m with
  | .present => .next (settle (presentHeld s))
  | .contend => contend s
  | .deliver c upstream => settleOutcome (exec (.rxChunk c) { s with upstream := upstream })
  | .input => runInput s

/-- The state in which a signal is the next to move: put in front of the inputs, with nothing waiting that would go before it. -/
def placeSignal (port : Port) (bytes : List Byte) (s : State) : State :=
  { s with inputs := .signal port bytes :: s.inputs, held := [], upstream := [] }

end Sys2Proof.Machine
end

