-- ==== Sys2Proof/Machine/Step.lean ====
section
/-! DEFINITION. One step of the machine, and the placing of a word where the next step reads its instruction. -/

namespace Sys2Proof.Machine

open Sys2Proof

/-- One step: the next mover moves (log 1). -/
def step (s : State) : Host.Outcome State Fault Refusal := runMove (nextMove s) s

/-- `s` with the instruction of an opcode-table word as the environment's next signal (log 2). A width that no row has changes
nothing. -/
def State.withFetchWord (s : State) (nbits w : Nat) : State :=
  match tableSignal nbits w with
  | some (port, bytes) => placeSignal port bytes s
  | none => s

end Sys2Proof.Machine
end

