-- ==== Sys2Proof/Safety.lean ====
section
/-! DEFINITION. What claims are stated in: the invariant of the machine, running a list of instructions, and what it means that nothing
waits that would move before the environment's next signal. -/

namespace Sys2Proof.Machine

open Sys2Proof

/-! ### The invariant -/

/-- The request latched in `TXF` and `ACKP`: some `ENCODE_SET` frame, and the pattern of the same address (spec/10_state.md R11,
R12; spec/42_transaction.md R141). -/
def RequestLatched (s : State) : Prop :=
  ∃ address target level fade,
    s.txf = encodeSet address target level fade ∧ s.ackp = expectedAck address

/-- The registers every phase keeps in bounds, and the canonical forms (spec/10_state.md R14, R20, R25). -/
structure RegistersInBounds (s : State) : Prop where
  rxb_canonical : Memory.wf s.rxb = true
  rxb_fits : Memory.len s.rxb ≤ Config.maxBufHw
  maxBuf_legal : Config.minBuf ≤ s.cfgMaxBuf.toNat ∧ s.cfgMaxBuf.toNat ≤ Config.maxBufHw
  txIdx_bound : s.txIdx.toNat ≤ 14
  cache_canonical : cacheWf s.cache = true

/-- While the block is busy the link is open, the result is `NONE`, a request is latched, and the buffer is within the bound in force
(spec/10_state.md R17, R28; spec/41_ack_detect.md R113). -/
structure BusyConsistent (s : State) : Prop where
  link : s.linkOpen = true
  result : s.result = .none
  latched : RequestLatched s
  bounded : Memory.len s.rxb ≤ s.cfgMaxBuf.toNat

/-- What each phase says of the index, the timer and the buffer (spec/42_transaction.md R130; spec/10_state.md R19). -/
structure PhaseConsistent (s : State) : Prop where
  flushing : s.phase = .flushing → s.txIdx = 0 ∧ s.tmr.toNat < s.cfgTFlushWindow.toNat ∧ s.rxb = []
  writing : s.phase = .writing → s.txIdx.toNat ≤ 13 ∧ s.rxb = []
  awaiting : s.phase = .awaiting →
    s.txIdx = 14 ∧ s.tmr.toNat < s.cfgTTotal.toNat ∧ containsAck (Memory.bytes s.rxb) s.ackp = false

/-- What each result records (spec/60_exceptions.md R190). -/
structure ResultRecorded (s : State) : Prop where
  matched : s.result = .matched → s.txIdx = 14 ∧ containsAck (Memory.bytes s.rxb) s.ackp = true
  noAckTimeout : s.result = .noAckTimeout →
    s.txIdx = 14 ∧ s.tmr = s.cfgTTotal ∧ containsAck (Memory.bytes s.rxb) s.ackp = false
  writeFailed : s.result = .writeFailed → s.txIdx.toNat ≤ 13 ∧ s.rxb = []
  readError : s.result = .readError → (s.txIdx = 0 ∧ s.rxb = []) ∨ s.txIdx = 14
  linkUnavailable : s.result = .linkUnavailable → s.linkOpen = false

/-- The call of the reference host that holds the block: the block is busy with its own request, and every call still has an attempt to
make (spec/43_host_controller.md R172). -/
structure HostConsistent (s : State) : Prop where
  running : ∀ c, s.running = some c →
    s.phase ≠ .idle ∧ 1 ≤ c.left ∧
    operandFrame c.address c.channel c.level c.fade = some s.txf ∧ s.ackp = expectedAck c.address
  waiting : ∀ c, Request.attempt c ∈ s.held → 1 ≤ c.left

/-- The invariant of the machine. -/
structure MachineInvariant (s : State) : Prop where
  registers : RegistersInBounds s
  busy : s.phase ≠ .idle → BusyConsistent s
  phases : PhaseConsistent s
  results : ResultRecorded s
  host : HostConsistent s

/-! ### Running -/

/-- Run instructions one after another, stopping at the first stop. -/
def execAll (is : List Instr) (s : State) : Host.Outcome State Fault Refusal :=
  match is with
  | [] => .next s
  | i :: rest =>
    match exec i s with
    | .next t => execAll rest t
    | .fault f => .fault f
    | .refused r => .refused r

/-- `k` steps of the machine, stopping at the first stop. -/
def steps (k : Nat) (s : State) : Host.Outcome State Fault Refusal :=
  match k with
  | 0 => .next s
  | k + 1 =>
    match step s with
    | .next t => steps k t
    | .fault f => .fault f
    | .refused r => .refused r

/-- Nothing waits that would move before the environment's next signal (log 1). -/
def nothingWaits (s : State) : Bool :=
  match s.phase with
  | .idle => s.held.isEmpty
  | .flushing => s.upstream.isEmpty
  | .writing => true
  | .awaiting => s.upstream.isEmpty

/-- An instruction as the environment's signal. -/
def signalOf (i : Instr) : Input := .signal (portOf i) (encode i)

/-- The transitions between phases that one command or event may make (spec/10_state.md R15). -/
def phaseMoves : Phase → Phase → Bool
  | .idle, .idle => true
  | .idle, .flushing => true
  | .idle, .writing => true
  | .idle, .awaiting => false
  | .flushing, .flushing => true
  | .flushing, .writing => true
  | .flushing, .idle => true
  | .flushing, .awaiting => false
  | .writing, .writing => true
  | .writing, .awaiting => true
  | .writing, .idle => true
  | .writing, .flushing => false
  | .awaiting, .awaiting => true
  | .awaiting, .idle => true
  | .awaiting, .flushing => false
  | .awaiting, .writing => false

end Sys2Proof.Machine
end

