-- ==== Sys2Proof/Certificates/Slice0/Obligations.lean ====
section
/-! DEFINITION. The statements for the provers. Each docstring names the rule of the spec that the statement formalises, or the log entry
or sections it rests on. -/

open Sys2Proof Sys2Proof.Machine

/-! ## Encoding -/

/-- Decoding the encoding of an instruction gives the instruction back, every operand at every value (formats of spec/30_encoding.md
R60, R61, R71, R72, R76; byte layout log 10). -/
def Obligations.DecodeInvertsEncode : Prop :=
  ∀ i : Instr, decode (portOf i) (encode i) = .ok i

/-- R60, R61: what bytes are a request frame, which field each byte is, and what bytes are an acknowledgement frame. -/
def Obligations.WireFrameLayouts : Prop :=
  (∀ (bs : List Byte) (i : Instr),
    decode .wireOut bs = .ok i ↔
      ∃ (addr l1 t1 l2 t2 l3 t3 l4 t4 : Byte) (cks : BitVec 7),
        i = .setLevels addr l1 t1 l2 t2 l3 t3 l4 t4 cks ∧
        bs = [0xFF, 0xFE, addr, 0x57, l1, t1, l2, t2, l3, t3, l4, t4, cks.setWidth 8, 0xFF]) ∧
  (∀ (bs : List Byte) (i : Instr),
    decode .wireIn bs = .ok i ↔ ∃ addr : Byte, i = .ack addr ∧ bs = [0xFE, addr, 0x06, 0xFF])

/-- R71: the command of every 45-bit word, its fields by their bit positions. R72: the event codes; a code above 100 names no event (byte
layout log 10). -/
def Obligations.CommandAndEventWords : Prop :=
  (∀ w : BitVec 45, decode .cmd (bytesOfWord w) = .ok
    (if w.extractLsb' 43 2 = 0#2 then .connect
     else if w.extractLsb' 43 2 = 1#2 then .cfgwr (w.extractLsb' 16 3) (w.extractLsb' 0 16)
     else if w.extractLsb' 43 2 = 2#2 then
       .transact (w.extractLsb' 35 8) (w.extractLsb' 32 3) (w.extractLsb' 16 16) (w.extractLsb' 0 16)
     else .cmdReserved)) ∧
  decode .event [0] = .ok .tick ∧
  (∀ b rest, decode .event (1 :: b :: rest) = .ok (.rxChunk { first := b, rest := rest })) ∧
  decode .event [2] = .ok .rxErr ∧
  decode .event [3] = .ok .txAccept ∧
  decode .event [4] = .ok .txErr ∧
  (∀ (code : Byte) (data : List Byte), 5 ≤ code.toNat → decode .event (code :: data) = .error .noSuchEvent)

/-- Words of the formats decode to what they stand for: the frame of V10, the pattern of S2 for address 5, and the command words of P1, P2,
P3 and P5 (spec/95_test_vectors.md); the words of the reserved command and of `TICK` are made from spec/30_encoding.md R71 and R72. The
last clause reads the word of P6, step 8, a word of `TRANSACT`, as `TURN_OFF`: that the port tells the two apart is the model's (log 9). -/
def Obligations.SpecWordsDecode : Prop :=
  decodeTableWord 112 0xFFFE05570105C8030105010539FF =
    some (.setLevels 5 1 5 200 3 1 5 1 5 0x39) ∧
  decodeTableWord 32 0xFE0506FF = some (.ack 5) ∧
  decodeTableWord 48 0x000000000000 = some .connect ∧
  decodeTableWord 48 0x080000040008 = some (.cfgwr 4 8) ∧
  decodeTableWord 48 0x080000020000 = some (.cfgwr 2 0) ∧
  decodeTableWord 48 0x102A00C80003 = some (.transact 5 2 200 3) ∧
  decodeTableWord 48 0x105400800000 = some (.transact 10 4 128 0) ∧
  decodeTableWord 48 0x180000000000 = some .cmdReserved ∧
  decodeTableWord 8 0 = some .tick ∧
  decode .turnOffCall (bytesOf 6 0x102A00000003) = .ok (.turnOff 5 2 3)

/-- A well-formed request frame is one that `ENCODE_SET` builds, and every frame that `ENCODE_SET` builds is well-formed (rests on R63,
R64, R65, R94). -/
def Obligations.WellFormedFramesAreEncodeSet : Prop :=
  ∀ (addr l1 t1 l2 t2 l3 t3 l4 t4 : Byte) (cks : BitVec 7),
    (Instr.setLevels addr l1 t1 l2 t2 l3 t3 l4 t4 cks).wellFormed = true ↔
      ∃ (target : Channel) (level fade : Int),
        [0xFF, 0xFE, addr, 0x57, l1, t1, l2, t2, l3, t3, l4, t4, cks.setWidth 8, 0xFF] =
          (encodeSet addr target level fade).toList

/-! ## The frame encoder -/

/-- R90: the checksum is the integer sum of the ten bytes modulo 128. R91: `CLAMP` saturates an integer to 0..255. -/
def Obligations.ChecksumAndClampValues : Prop :=
  (∀ (address command : Byte) (p : Payload),
    (checksum address command p).toNat =
      (address.toNat + command.toNat + p[0].toNat + p[1].toNat + p[2].toNat + p[3].toNat +
        p[4].toNat + p[5].toNat + p[6].toNat + p[7].toNat) % 128) ∧
  (∀ v : Int, ((clamp v).toNat : Int) = if v < 0 then 0 else if v > 255 then 255 else v)

/-- R96: the laws of `ENCODE_SET` (the length is that of the type `Frame`, 14). -/
def Obligations.EncodeSetLaws : Prop :=
  ∀ (address : Byte) (target : Channel) (level fade : Int),
    let f := (encodeSet address target level fade).toList
    f.length = 14 ∧ f[0]? = some 0xFF ∧ f[1]? = some 0xFE ∧ f[2]? = some address ∧ f[3]? = some 0x57 ∧
    f[4 + 2 * (channelNumber target - 1)]? = some (clamp level) ∧
    f[5 + 2 * (channelNumber target - 1)]? = some (clamp fade) ∧
    (∀ c : Channel, c ≠ target →
      f[4 + 2 * (channelNumber c - 1)]? = some 1 ∧ f[5 + 2 * (channelNumber c - 1)]? = some 5) ∧
    (∃ k : Byte, f[12]? = some k ∧ k.toNat = (((f.drop 2).take 10).map BitVec.toNat).sum % 128 ∧ k.toNat ≤ 0x7F) ∧
    f[13]? = some 0xFF

/-- R97: `DECODE_SET` is valid exactly on 14 bytes with the fixed bytes and the right checksum, and inverts `ENCODE_SET`. -/
def Obligations.DecodeSetInvertsEncodeSet : Prop :=
  (∀ (f : List Byte) (d : DecodedSet), decodeSet f = some d ↔
    ∃ (a k : Byte) (p : Payload),
      f = [0xFF, 0xFE, a, 0x57] ++ p.toList ++ [k, 0xFF] ∧ k = checksum a 0x57 p ∧
      d = { address := a, pairs := [(p[0], p[1]), (p[2], p[3]), (p[4], p[5]), (p[6], p[7])] }) ∧
  (∀ (address : Byte) (target : Channel) (level fade : Int),
    ∃ d, decodeSet (encodeSet address target level fade).toList = some d ∧ d.address = address ∧
      d.pairs[channelNumber target - 1]? = some (clamp level, clamp fade))

/-- The block's own request, echoed once or twice back to back, never holds the pattern of its own address (rests on R118, derived
there by enumeration). -/
def Obligations.EchoNeverMatches : Prop :=
  ∀ (address : Byte) (target : Channel) (level fade : Int),
    let f := (encodeSet address target level fade).toList
    containsAck f (expectedAck address) = false ∧ containsAck (f ++ f) (expectedAck address) = false

/-! ## The detector -/

/-- R110: `CONTAINS_ACK` says whether the pattern occurs contiguously somewhere in the buffer. R111: `KEEP_LAST` keeps the newest `n`
bytes in their order, and everything if there are no more. -/
def Obligations.ContainsAckAndKeepLast : Prop :=
  (∀ (buffer : List Byte) (pattern : Pattern),
    containsAck buffer pattern = true ↔
      ∃ i, i + 4 ≤ buffer.length ∧ buffer[i]? = some pattern[0] ∧ buffer[i + 1]? = some pattern[1] ∧
        buffer[i + 2]? = some pattern[2] ∧ buffer[i + 3]? = some pattern[3]) ∧
  (∀ (s : List Byte) (n : Nat),
    (s.length ≤ n → keepLast s n = s) ∧
    (n < s.length → (keepLast s n).length = n ∧ ∃ dropped, s = dropped ++ keepLast s n))

/-- The corners of truncation against matching (rests on R112, R116): a bound under 4 never matches; a pattern that ends `t` bytes
before the end of a chunk is found if `t + 4 <= n`. -/
def Obligations.TruncationAgainstMatching : Prop :=
  (∀ (buffer chunk : List Byte) (n : Nat) (pattern : Pattern), n < 4 → (rxAppend buffer chunk n pattern).2 = false) ∧
  (∀ (buffer before after : List Byte) (n : Nat) (pattern : Pattern), after.length + 4 ≤ n →
    (rxAppend buffer (before ++ pattern.toList ++ after) n pattern).2 = true)

/-- The window form (rests on R114): with chunks of one byte and a bound of at least 4, as long as the buffer has not held the pattern,
the search of the buffer and the 4-byte window give the same answer. -/
def Obligations.WindowFormEqualsSearch : Prop :=
  ∀ (n : Nat) (pattern : Pattern) (bs : List Byte) (x : Byte), 4 ≤ n →
    (∀ k ≤ bs.length, containsAck (bufferAfter n (bs.take k)) pattern = false) →
    containsAck (bufferAfter n (bs ++ [x])) pattern = windowHit (windowAfter (bs ++ [x])) pattern

/-- The automaton form (rests on R115): for the pattern of every address, `0xFE` included, the automaton reaches state 4 exactly when
the pattern has occurred in the bytes received. -/
def Obligations.AutomatonFormEqualsSearch : Prop :=
  ∀ (address : Byte) (bs : List Byte),
    automatonAfter (expectedAck address) bs = 4 ↔ containsAck bs (expectedAck address) = true

/-! ## Commands -/

/-- `CONNECT` in `IDLE`, for every answer of the environment (rests on R133; that a free value answers where none is listed is the model's
choice, log 4). -/
def Obligations.ConnectOpensLink : Prop :=
  ∀ s : State, s.phase = .idle →
    (s.linkOpen = true → exec .connect s = .next { s with result := .none }) ∧
    (s.linkOpen = false →
      (∀ rest, s.openAnswers = true :: rest →
        exec .connect s = .next { s with openAnswers := rest, linkOpen := true, result := .none }) ∧
      (∀ rest, s.openAnswers = false :: rest →
        exec .connect s = .next { s with openAnswers := rest, result := .linkUnavailable }) ∧
      (s.openAnswers = [] → ∃ ok : Bool,
        exec .connect s = .next { s with
          draws := s.draws + 1, linkOpen := ok, result := if ok then .none else .linkUnavailable }))

/-- R134: `CFGWR` in `IDLE`, every register and every value. -/
def Obligations.CfgwrWritesRegister : Prop :=
  ∀ (s : State) (v : Half), s.phase = .idle →
    exec (.cfgwr 0 v) s = .next { s with cfgTTotal := v, result := .none } ∧
    exec (.cfgwr 1 v) s = .next { s with cfgTChunk := v, result := .none } ∧
    exec (.cfgwr 2 v) s = .next { s with cfgTFlushWindow := v, result := .none } ∧
    exec (.cfgwr 3 v) s = .next { s with cfgTFlushRead := v, result := .none } ∧
    (4 ≤ v.toNat ∧ v.toNat ≤ 4096 →
      ∃ m : BitVec 13, m.toNat = v.toNat ∧ exec (.cfgwr 4 v) s = .next { s with cfgMaxBuf := m, result := .none }) ∧
    (v.toNat < 4 ∨ 4096 < v.toNat → exec (.cfgwr 4 v) s = .next { s with result := .badCommand }) ∧
    (∀ reg : BitVec 3, 5 ≤ reg.toNat → exec (.cfgwr reg v) s = .next { s with result := .badCommand })

/-- R135: the reserved command code. -/
def Obligations.ReservedCommandRefused : Prop :=
  ∀ s : State, s.phase = .idle → exec .cmdReserved s = .next { s with result := .badCommand }

/-- Acceptance of `TRANSACT`, in its order: the channel, the link, then latch, clear and start (rests on R141; that a free value answers where
none is listed is the model's choice, log 4). -/
def Obligations.TransactAccepted : Prop :=
  ∀ (s : State) (address : Byte) (channel : BitVec 3) (level fade : Half), s.phase = .idle →
    (channel.toNat = 0 ∨ 5 ≤ channel.toNat →
      exec (.transact address channel level fade) s = .next { s with result := .badChannel }) ∧
    (∀ target : Channel, channel.toNat = channelNumber target →
      let started (t : State) : State :=
        { t with
          txf := encodeSet address target level.toInt fade.toInt
          ackp := expectedAck address
          txIdx := 0
          rxb := []
          tmr := 0
          linkOpen := true
          result := .none
          phase := if t.cfgTFlushWindow = 0 then .writing else .flushing }
      (s.linkOpen = true → exec (.transact address channel level fade) s = .next (started s)) ∧
      (s.linkOpen = false →
        (∀ rest, s.openAnswers = true :: rest →
          exec (.transact address channel level fade) s = .next (started { s with openAnswers := rest })) ∧
        (∀ rest, s.openAnswers = false :: rest →
          exec (.transact address channel level fade) s =
            .next { s with openAnswers := rest, result := .linkUnavailable }) ∧
        (s.openAnswers = [] → ∃ ok : Bool,
          exec (.transact address channel level fade) s = .next
            (if ok then started { s with draws := s.draws + 1 }
             else { s with draws := s.draws + 1, result := .linkUnavailable }))))

/-- While busy every command waits at the port with its operands unchanged (rests on R132; the held list is the model's, log 6). -/
def Obligations.CommandsWaitWhileBusy : Prop :=
  ∀ (s : State) (c : HostCommand), s.phase ≠ .idle →
    exec (instrOfCommand c) s = .next { s with held := s.held ++ [.command c] }

/-! ## Events -/

/-- R145: `TICK` in `FLUSHING`. The premise on the timer is an invariant (`RegistersInBounds` and `PhaseConsistent`). -/
def Obligations.TickInFlushing : Prop :=
  ∀ s : State, s.phase = .flushing → s.tmr.toNat < 65535 →
    exec .tick s = .next { s with
      tmr := s.tmr + 1
      phase := if (s.tmr + 1).toNat ≥ s.cfgTFlushWindow.toNat then .writing else .flushing }

/-- R149, and the first clause of R155: `TICK` in `WRITING` and in `IDLE` changes nothing. -/
def Obligations.TickWithoutEffect : Prop :=
  ∀ s : State, s.phase = .writing ∨ s.phase = .idle → exec .tick s = .next s

/-- R153: `TICK` in `AWAITING`. The premise on the timer is an invariant. -/
def Obligations.TickInAwaiting : Prop :=
  ∀ s : State, s.phase = .awaiting → s.tmr.toNat < 65535 →
    ((s.tmr + 1).toNat < s.cfgTTotal.toNat → exec .tick s = .next { s with tmr := s.tmr + 1 }) ∧
    ((s.tmr + 1).toNat ≥ s.cfgTTotal.toNat →
      exec .tick s = .next { s with tmr := s.tmr + 1, result := .noAckTimeout, phase := .idle })

/-- R143: `RX_CHUNK` in `FLUSHING` changes nothing, however many chunks arrive and whatever they hold. -/
def Obligations.FlushDiscardsChunks : Prop :=
  ∀ (s : State) (chunks : List Chunk), s.phase = .flushing → execAll (chunks.map .rxChunk) s = .next s

/-- R151: `RX_CHUNK` in `AWAITING`: append, truncate, test. The contents of the new buffer are given through the bytes held. -/
def Obligations.ChunkInAwaiting : Prop :=
  ∀ (s : State) (c : Chunk), s.phase = .awaiting →
    let bytes := Memory.bytes s.rxb ++ (c.first :: c.rest)
    let kept := bytes.drop (bytes.length - s.cfgMaxBuf.toNat)
    ∃ rxb : Memory, Memory.bytes rxb = kept ∧ Memory.wf rxb = true ∧
      exec (.rxChunk c) s = .next
        (if containsAck kept s.ackp then { s with rxb := rxb, result := .matched, phase := .idle }
         else { s with rxb := rxb })

/-- R144, R152: `RX_ERR` where a read is outstanding. What R144 says of `TXIDX` and `RXB` holds in states that meet the invariant. -/
def Obligations.ReceiverErrorEndsAttempt : Prop :=
  (∀ s : State, s.phase = .flushing →
    exec .rxErr s = .next { s with result := .readError, phase := .idle } ∧ (MachineInvariant s → s.txIdx = 0 ∧ s.rxb = [])) ∧
  (∀ s : State, s.phase = .awaiting →
    exec .rxErr s = .next { s with result := .readError, phase := .idle } ∧ (MachineInvariant s → s.txIdx = 14))

/-- R146: `TX_ACCEPT` in `WRITING` before the last byte. -/
def Obligations.TransmitterTakesByte : Prop :=
  ∀ (s : State) (k : Nat) (h : k < 13), s.phase = .writing → s.txIdx.toNat = k →
    exec .txAccept s = .next { s with sent := s.sent ++ [s.txf[k]], txIdx := BitVec.ofNat 4 (k + 1) }

/-- R147: the `TX_ACCEPT` that takes `TXF[13]`. -/
def Obligations.LastByteEndsWrite : Prop :=
  ∀ s : State, s.phase = .writing → s.txIdx = 13 →
    (0 < s.cfgTTotal.toNat →
      exec .txAccept s = .next { s with sent := s.sent ++ [s.txf[13]], txIdx := 14, tmr := 0, phase := .awaiting }) ∧
    (s.cfgTTotal = 0 →
      exec .txAccept s = .next { s with
        sent := s.sent ++ [s.txf[13]], txIdx := 14, tmr := 0, result := .noAckTimeout, phase := .idle })

/-- R148: `TX_ERR` in `WRITING`. `RXB` is empty in states that meet the invariant. -/
def Obligations.TransmitterErrorEndsAttempt : Prop :=
  ∀ s : State, s.phase = .writing →
    exec .txErr s = .next { s with result := .writeFailed, phase := .idle } ∧
    (MachineInvariant s → s.txIdx.toNat ≤ 13 ∧ s.rxb = [])

/-- Errors and transfers that are not enabled are ignored, and bytes that arrive in `IDLE` or `WRITING` are not taken: they wait upstream
behind those already there (rests on R54, R131; that the model answers a next state is log 6, that what waits keeps
its chunk boundaries log 25). -/
def Obligations.NotEnabledEvents : Prop :=
  ∀ s : State,
    (s.phase ≠ .writing → exec .txAccept s = .next s ∧ exec .txErr s = .next s) ∧
    (s.phase = .idle ∨ s.phase = .writing →
      exec .rxErr s = .next s ∧ ∀ c : Chunk, exec (.rxChunk c) s = .next { s with upstream := s.upstream ++ [c] })

/-! ## The wire frames -/

/-- `SET_LEVELS`: the whole frame the block offers goes on the bus in one step, and R147 applies (rests on R158; log 7). Any other frame is
no step of the block. -/
def Obligations.WholeFrameSent : Prop :=
  ∀ (s : State) (addr l1 t1 l2 t2 l3 t3 l4 t4 : Byte) (cks : BitVec 7),
    let bytes : List Byte := [0xFF, 0xFE, addr, 0x57, l1, t1, l2, t2, l3, t3, l4, t4, cks.setWidth 8, 0xFF]
    (s.phase = .writing → s.txIdx = 0 → s.txf.toList = bytes →
      exec (.setLevels addr l1 t1 l2 t2 l3 t3 l4 t4 cks) s = .next
        (if s.cfgTTotal = 0 then
           { s with sent := s.sent ++ bytes, txIdx := 14, tmr := 0, result := .noAckTimeout, phase := .idle }
         else { s with sent := s.sent ++ bytes, txIdx := 14, tmr := 0, phase := .awaiting })) ∧
    (s.phase ≠ .writing ∨ s.txIdx ≠ 0 ∨ s.txf.toList ≠ bytes →
      exec (.setLevels addr l1 t1 l2 t2 l3 t3 l4 t4 cks) s = .next s)

/-- The fourteen `TX_ACCEPT` steps and the one step `SET_LEVELS` are the same (rests on R158). -/
def Obligations.WholeFrameRefinesTransfers : Prop :=
  ∀ (s : State) (addr l1 t1 l2 t2 l3 t3 l4 t4 : Byte) (cks : BitVec 7),
    s.phase = .writing → s.txIdx = 0 →
    s.txf.toList = [0xFF, 0xFE, addr, 0x57, l1, t1, l2, t2, l3, t3, l4, t4, cks.setWidth 8, 0xFF] →
    execAll (List.replicate 14 .txAccept) s = exec (.setLevels addr l1 t1 l2 t2 l3 t3 l4 t4 cks) s

/-- `ACK`: the acknowledgement of the addressed module ends the transaction with `MATCHED`, whatever the buffer held, for every legal bound
(rests on R61, R66, R151; one chunk by log 8). -/
def Obligations.AckOfAddressedModuleMatches : Prop :=
  ∀ (s : State) (addr : Byte), s.phase = .awaiting → s.ackp = expectedAck addr → 4 ≤ s.cfgMaxBuf.toNat →
    let bytes := Memory.bytes s.rxb ++ [0xFE, addr, 0x06, 0xFF]
    ∃ rxb : Memory, Memory.bytes rxb = bytes.drop (bytes.length - s.cfgMaxBuf.toNat) ∧ Memory.wf rxb = true ∧
      exec (.ack addr) s = .next { s with rxb := rxb, result := .matched, phase := .idle }

/-- `ACK` in every phase (rests on R54, R66, R143, R151; log 8, log 25): in `AWAITING` its four bytes are appended, truncated and tested, and
the acknowledgement of another module ends nothing, whatever the buffer held, unless it held the pattern already. -/
def Obligations.AckElsewhere : Prop :=
  (∀ (s : State) (addr : Byte), s.phase = .flushing → exec (.ack addr) s = .next s) ∧
  (∀ (s : State) (addr : Byte), s.phase = .idle ∨ s.phase = .writing →
    exec (.ack addr) s = .next { s with upstream := s.upstream ++ [{ first := 0xFE, rest := [addr, 0x06, 0xFF] }] }) ∧
  (∀ (s : State) (addr : Byte), s.phase = .awaiting →
    let rxb := Memory.append s.rxb [0xFE, addr, 0x06, 0xFF] s.cfgMaxBuf.toNat
    exec (.ack addr) s = .next
      (if containsAck (Memory.bytes rxb) s.ackp then { s with rxb := rxb, result := .matched, phase := .idle }
       else { s with rxb := rxb }) ∧
    (∀ other : Byte, s.ackp = expectedAck other → addr ≠ other → containsAck (Memory.bytes s.rxb) s.ackp = false →
      exec (.ack addr) s = .next { s with rxb := rxb }))

/-! ## Frames -/

/-- The events and wire frames (`TICK`, `RX_CHUNK`, `RX_ERR`, `TX_ACCEPT`, `TX_ERR`, `SET_LEVELS`, `ACK`) write none of these, and which of
them write the buffer, the index, the timer, the result and the bus. -/
def Obligations.EventFrame : Prop :=
  ∀ (i : Instr) (s t : State), portOf i = .event ∨ portOf i = .wireOut ∨ portOf i = .wireIn → exec i s = .next t →
    (t.txf = s.txf ∧ t.ackp = s.ackp ∧ t.linkOpen = s.linkOpen ∧ t.cfgTTotal = s.cfgTTotal ∧ t.cfgTChunk = s.cfgTChunk ∧
      t.cfgTFlushWindow = s.cfgTFlushWindow ∧ t.cfgTFlushRead = s.cfgTFlushRead ∧ t.cfgMaxBuf = s.cfgMaxBuf ∧
      t.inputs = s.inputs ∧ t.held = s.held ∧ t.openAnswers = s.openAnswers ∧ t.arbiterPicks = s.arbiterPicks ∧
      t.draws = s.draws ∧ t.toControllers = s.toControllers) ∧
    (portOf i ≠ .wireIn → (∀ c, i ≠ .rxChunk c) →
      (∀ a, Memory.readByte t.rxb a = Memory.readByte s.rxb a) ∧ t.upstream = s.upstream) ∧
    (portOf i ≠ .wireOut → i ≠ .txAccept → t.sent = s.sent ∧ t.txIdx = s.txIdx) ∧
    (portOf i ≠ .wireOut → i ≠ .txAccept → i ≠ .tick → t.tmr = s.tmr) ∧
    (t.result ≠ s.result → t.phase = .idle)

/-- What `RX_CHUNK` and `ACK` store: in `AWAITING` every index of the buffer reads as the truncated sequence says, in the other phases every
index reads as before; `ACK` stores what the chunk of its four bytes stores, and does nothing else (rests on R66, R131, R143, R151; log 8). -/
def Obligations.ChunkStores : Prop :=
  (∀ (s t : State) (i : Instr) (c : Chunk),
    i = .rxChunk c ∨ (∃ addr, i = .ack addr ∧ c = { first := 0xFE, rest := [addr, 0x06, 0xFF] }) → exec i s = .next t →
    (s.phase = .awaiting → ∀ a, Memory.readByte t.rxb a =
      (keepLast (Memory.bytes s.rxb ++ chunkBytes c) s.cfgMaxBuf.toNat)[a]?) ∧
    (s.phase ≠ .awaiting → ∀ a, Memory.readByte t.rxb a = Memory.readByte s.rxb a)) ∧
  (∀ (s : State) (addr : Byte),
    exec (.ack addr) s = exec (.rxChunk { first := 0xFE, rest := [addr, 0x06, 0xFF] }) s)

/-- `CONNECT`, `CFGWR`, the reserved command and `TRANSACT` in `IDLE`: what each leaves unchanged. -/
def Obligations.CommandFrame : Prop :=
  ∀ (i : Instr) (s t : State), portOf i = .cmd → s.phase = .idle → exec i s = .next t →
    (t.inputs = s.inputs ∧ t.upstream = s.upstream ∧ t.held = s.held ∧ t.sent = s.sent ∧ t.arbiterPicks = s.arbiterPicks ∧
      t.toControllers = s.toControllers) ∧
    ((∀ reg v, i ≠ .cfgwr reg v) →
      t.cfgTTotal = s.cfgTTotal ∧ t.cfgTChunk = s.cfgTChunk ∧ t.cfgTFlushWindow = s.cfgTFlushWindow ∧
      t.cfgTFlushRead = s.cfgTFlushRead ∧ t.cfgMaxBuf = s.cfgMaxBuf) ∧
    (∀ reg v, i = .cfgwr reg v →
      (t.cfgTTotal ≠ s.cfgTTotal → reg = 0) ∧ (t.cfgTChunk ≠ s.cfgTChunk → reg = 1) ∧
      (t.cfgTFlushWindow ≠ s.cfgTFlushWindow → reg = 2) ∧ (t.cfgTFlushRead ≠ s.cfgTFlushRead → reg = 3) ∧
      (t.cfgMaxBuf ≠ s.cfgMaxBuf → reg = 4)) ∧
    (i = .cmdReserved ∨ (∃ reg v, i = .cfgwr reg v) →
      t.linkOpen = s.linkOpen ∧ t.openAnswers = s.openAnswers ∧ t.draws = s.draws) ∧
    (t.phase = .idle →
      t.txf = s.txf ∧ t.ackp = s.ackp ∧ t.txIdx = s.txIdx ∧ t.tmr = s.tmr ∧
      ∀ a, Memory.readByte t.rxb a = Memory.readByte s.rxb a) ∧
    (t.phase ≠ .idle → ∃ address channel level fade, i = .transact address channel level fade)

/-- `SET` and `TURN_OFF` leave the configuration, the caches and what is outside the port unchanged; an attempt that starts no transaction
leaves the frame, the pattern, the buffer, the index and the timer. -/
def Obligations.HostCallFrame : Prop :=
  ∀ (i : Instr) (s t : State), portOf i = .setCall ∨ portOf i = .turnOffCall → exec i s = .next t →
    t.cfgTTotal = s.cfgTTotal ∧ t.cfgTChunk = s.cfgTChunk ∧ t.cfgTFlushWindow = s.cfgTFlushWindow ∧
    t.cfgTFlushRead = s.cfgTFlushRead ∧ t.cfgMaxBuf = s.cfgMaxBuf ∧ t.inputs = s.inputs ∧ t.upstream = s.upstream ∧
    t.sent = s.sent ∧ t.arbiterPicks = s.arbiterPicks ∧ t.cache = s.cache ∧ t.retryBound = s.retryBound ∧
    (s.phase = .idle → t.held = s.held) ∧ (0 < s.retryBound → t.returned = s.returned) ∧
    (t.phase = s.phase →
      t.txf = s.txf ∧ t.ackp = s.ackp ∧ t.txIdx = s.txIdx ∧ t.tmr = s.tmr ∧
      ∀ a, Memory.readByte t.rxb a = Memory.readByte s.rxb a)

/-! ## Whole-machine rules -/

/-- `TXF` and `ACKP` are written only by the acceptance of a `TRANSACT` in `IDLE`, as a whole, from one address (rests on R11, R12, R52; the
attempts of `SET` and `TURN_OFF` are such acceptances, R76). -/
def Obligations.FrameWrittenOnlyByAcceptance : Prop :=
  ∀ (i : Instr) (s t : State), exec i s = .next t → t.txf ≠ s.txf ∨ t.ackp ≠ s.ackp →
    s.phase = .idle ∧
    ∃ address channel level fade,
      (i = .transact address channel level fade ∨ i = .set address channel level fade ∨
        (i = .turnOff address channel fade ∧ level = 0)) ∧
      ∃ target : Channel, channel.toNat = channelNumber target ∧
        t.txf = encodeSet address target level.toInt fade.toInt ∧ t.ackp = expectedAck address

/-- Configuration registers are written only by `CFGWR`, only in `IDLE` (rests on R26). -/
def Obligations.ConfigWrittenOnlyByCfgwr : Prop :=
  ∀ (i : Instr) (s t : State), exec i s = .next t →
    t.cfgTTotal ≠ s.cfgTTotal ∨ t.cfgTChunk ≠ s.cfgTChunk ∨ t.cfgTFlushWindow ≠ s.cfgTFlushWindow ∨
      t.cfgTFlushRead ≠ s.cfgTFlushRead ∨ t.cfgMaxBuf ≠ s.cfgMaxBuf →
    s.phase = .idle ∧ ∃ reg value, i = .cfgwr reg value

/-- The link, once open, is closed by nothing but a reset (rests on R18). -/
def Obligations.LinkClosedOnlyByReset : Prop :=
  ∀ s t : State, step s = .next t → s.linkOpen = true → t.linkOpen = false →
    ∃ rest, s.inputs = .rst :: rest

/-- R15: the moves of `PHASE` and `TXIDX`. The index grows by one transfer at a time in `WRITING` (or by the whole frame, R158), and goes
back to 0 only on an accepted `TRANSACT`. -/
def Obligations.SequencerMoves : Prop :=
  ∀ (i : Instr) (s t : State), exec i s = .next t →
    phaseMoves s.phase t.phase = true ∧
    (t.txIdx = s.txIdx ∨
      (s.phase = .writing ∧ s.txIdx.toNat ≤ 13 ∧ t.txIdx = s.txIdx + 1) ∨
      (s.phase = .writing ∧ s.txIdx = 0 ∧ t.txIdx = 14) ∨
      (s.phase = .idle ∧ t.phase ≠ .idle ∧ t.txIdx = 0))

/-- The bus carries only bytes of the latched frame, in index order, and only in `WRITING` (rests on R49 (a), R42). -/
def Obligations.BusCarriesFrameInOrder : Prop :=
  ∀ s t : State, MachineInvariant s → step s = .next t →
    ∃ bytes, t.sent = s.sent ++ bytes ∧
      (bytes ≠ [] → s.phase = .writing ∧
        bytes = (s.txf.toList.drop s.txIdx.toNat).take (t.txIdx.toNat - s.txIdx.toNat))

/-- R157: every step that ends a transaction sets the result in the same step. -/
def Obligations.LockReleasedWithResult : Prop :=
  ∀ (i : Instr) (s t : State), MachineInvariant s → exec i s = .next t → s.phase ≠ .idle → t.phase = .idle →
    t.result = .matched ∨ t.result = .noAckTimeout ∨ t.result = .writeFailed ∨ t.result = .readError

/-- The invariant holds at reset (reset values R31; the free bytes of `TXF` and `ACKP` are log 3). -/
def Obligations.InvariantAtReset : Prop := MachineInvariant State.reset

/-- Every step keeps the invariant. -/
def Obligations.StepKeepsInvariant : Prop :=
  ∀ s t : State, MachineInvariant s → step s = .next t → MachineInvariant t

/-! ## Reset -/

/-- The registers the spec gives a reset value, after the first reset and after a `rst` in any phase; the outputs that follow; and what
is outside the block stays (rests on R31, R220, R221, R222). -/
def Obligations.ResetValues : Prop :=
  (∀ s : State, s = State.reset ∨ (∃ s0 : State, s = resetBlock s0) →
    s.phase = .idle ∧ s.txIdx = 0 ∧ s.result = .none ∧ s.linkOpen = false ∧ s.tmr = 0 ∧ s.rxb = [] ∧
    s.cfgTTotal = 800 ∧ s.cfgTChunk = 120 ∧ s.cfgTFlushWindow = 80 ∧ s.cfgTFlushRead = 10 ∧ s.cfgMaxBuf = 4096 ∧
    busy s = false ∧ cmdReady s = true ∧ txValid s = false ∧ rxReady s = false ∧ done s = false ∧ matched s = false) ∧
  (∀ s0 : State, (resetBlock s0).sent = s0.sent ∧ (resetBlock s0).upstream = s0.upstream ∧
    (resetBlock s0).held = s0.held ∧ (resetBlock s0).inputs = s0.inputs)

/-- A reset comes in any phase, before anything that waits, and ends the transaction without a result; a call of the reference host
then finds no match (rests on R220, R222; the host's part is log 16). -/
def Obligations.ResetInAnyPhase : Prop :=
  ∀ (s : State) (rest : List Input), s.inputs = .rst :: rest →
    ∃ t, step s = .next t ∧ t.toBlock = (resetBlock s).toBlock ∧ t.inputs = rest ∧ t.upstream = s.upstream ∧
      t.sent = s.sent ∧ t.cache = s.cache ∧ t.running = none ∧ s.held <+: t.held

/-! ## The step -/

/-- A step runs the decoded instruction, then the reference host looks at its call (log 1, log 23). -/
def Obligations.StepRunsSignal : Prop :=
  ∀ (s : State) (port : Port) (bytes : List Byte) (rest : List Input) (i : Instr),
    s.inputs = .signal port bytes :: rest → nothingWaits s = true → decode port bytes = .ok i →
    step s = settleOutcome (exec i { s with inputs := rest })

/-- A step that takes a call of the collaborator runs the `SET` with the call's address, channel and level, and the normalised transition time
as its fade (rests on R171, R172, R178; the form of the call is log 26, the order log 1, the host's look at its call log 23). -/
def Obligations.StepRunsCollaboratorCall : Prop :=
  ∀ (s : State) (address : Byte) (channel : BitVec 3) (level : Half) (time : FadeInput) (rest : List Input),
    s.inputs = .call { address := address, channel := channel, level := level, time := time } :: rest →
    nothingWaits s = true →
    step s = settleOutcome (exec (.set address channel level ((normFade time).setWidth 16)) { s with inputs := rest })

/-- In `IDLE`, with requests waiting and no reset next, a step accepts one of them, unchanged, or, if the environment's next input is a
request too, it may take that one first (rests on R132, R172, R208; the order before other inputs is log 1, the draw log 5, the host's
look at its call log 23). With the arbiter's next choice given, the step is that of the request chosen, so every order can come. A lone
waiting command, with no request arriving, runs as if it were presented now. -/
def Obligations.StepPresentsWaiting : Prop :=
  ∀ s : State, s.phase = .idle → s.held ≠ [] → (∀ rest, s.inputs ≠ .rst :: rest) →
    (∀ c, s.held = [.command c] → requestArrives s.inputs = false →
      step s = settleOutcome (exec (instrOfCommand c) { s with held := [] })) ∧
    (∃ (picks : List Nat) (draws : Nat),
      (∃ (k : Nat) (r : Request), s.held[k]? = some r ∧
        step s = .next (settle (acceptRequest r
          { s with held := s.held.eraseIdx k, arbiterPicks := picks, draws := draws }))) ∨
      (requestArrives s.inputs = true ∧ step s = runInput { s with arbiterPicks := picks, draws := draws })) ∧
    (∀ (k : Nat) (picks : List Nat), s.arbiterPicks = k :: picks →
      (∀ r, s.held[k]? = some r → requestArrives s.inputs = true ∨ 2 ≤ s.held.length →
        step s = .next (settle (acceptRequest r { s with held := s.held.eraseIdx k, arbiterPicks := picks }))) ∧
      (k = s.held.length →
        (∀ port bytes rest i, s.inputs = .signal port bytes :: rest → isRequestPort port = true → decode port bytes = .ok i →
          step s = settleOutcome (exec i { s with inputs := rest, arbiterPicks := picks })) ∧
        (∀ call rest, s.inputs = .call call :: rest →
          step s = settleOutcome (exec (.set call.address call.channel call.level ((normFade call.time).setWidth 16))
            { s with inputs := rest, arbiterPicks := picks }))))

/-- The oldest chunk waiting upstream is delivered first once the block reads (rests on R54; order log 1, chunk boundaries log 25). -/
def Obligations.StepDeliversUpstream : Prop :=
  ∀ (s : State) (c : Chunk) (rest : List Chunk), s.phase = .flushing ∨ s.phase = .awaiting →
    s.upstream = c :: rest → (∀ ins, s.inputs ≠ .rst :: ins) →
    step s = settleOutcome (exec (.rxChunk c) { s with upstream := rest })

/-- Bits no port can carry stop the machine, and nothing else does (R72's last sentence; log 10). -/
def Obligations.OnlyImpossibleSignalsStop : Prop :=
  ∀ s : State,
    (∃ t, step s = .next t) ∨
    (∃ port bytes rest e, s.inputs = .signal port bytes :: rest ∧ decode port bytes = .error e ∧
      step s = .fault (.noSuchSignal e))

/-- Events of one cycle are put in the order of R199: nothing lost or added, chunks before receiver errors before ticks, transmitter
errors before transfers. -/
def Obligations.SerialisedEvents : Prop :=
  ∀ events : List Instr,
    (serialise events).Perm events ∧
    (serialise events).Pairwise (fun i j => eventRank i ≤ eventRank j) ∧
    ∀ c, eventRank (.rxChunk c) < eventRank .rxErr ∧ eventRank .rxErr < eventRank .tick ∧
      eventRank .txErr < eventRank .txAccept

/-! ## Time -/

/-- The flush phase lasts exactly `CFG_T_FLUSH_WINDOW` ticks; without a match the deadline ends `AWAITING` at exactly `CFG_T_TOTAL` ticks
(rests on R142, R145, R150, R153, R159). -/
def Obligations.TimedPhasesLastExactly : Prop :=
  ∀ (s : State) (k : Nat), s.tmr = 0 →
    (s.phase = .flushing → 0 < s.cfgTFlushWindow.toNat → k ≤ s.cfgTFlushWindow.toNat →
      execAll (List.replicate k .tick) s = .next { s with
        tmr := BitVec.ofNat 16 k
        phase := if k = s.cfgTFlushWindow.toNat then .writing else .flushing }) ∧
    (s.phase = .awaiting → 0 < s.cfgTTotal.toNat → k ≤ s.cfgTTotal.toNat →
      execAll (List.replicate k .tick) s = .next
        (if k = s.cfgTTotal.toNat then { s with tmr := s.cfgTTotal, result := .noAckTimeout, phase := .idle }
         else { s with tmr := BitVec.ofNat 16 k }))

/-! ## The reference host -/

/-- R171: `NORM_FADE`. -/
def Obligations.NormFadeTruncatesAndClamps : Prop :=
  normFade .missing = 5 ∧ normFade .invalid = 5 ∧
  ∀ (num : Int) (den : Nat), 0 < den → ∀ q : Int,
    (0 ≤ num → q * den ≤ num ∧ num < (q + 1) * den) →
    (num < 0 → (q - 1) * den < num ∧ num ≤ q * den) →
    ((normFade (.seconds num den)).toNat : Int) = if q < 0 then 0 else if q > 255 then 255 else q

/-- `SET` in `IDLE` is its first `TRANSACT`, with the host waiting for the result; while busy it waits at the port. On an open link with a
legal channel the transaction starts with the call's frame, and `TURN_OFF` sends level 0 (rests on R76, R132, R141, R172, R176). -/
def Obligations.HostCallsStartTransaction : Prop :=
  ∀ (s : State) (address : Byte) (channel : BitVec 3) (level fade : Half), 0 < s.retryBound →
    let call (lvl : Half) : SetCall :=
      { address := address, channel := channel, level := lvl, fade := fade, left := s.retryBound }
    (s.phase = .idle →
      ∃ t, exec (.transact address channel level fade) s = .next t ∧
        exec (.set address channel level fade) s = .next { t with running := some (call level) }) ∧
    (s.phase ≠ .idle →
      exec (.set address channel level fade) s = .next { s with held := s.held ++ [.attempt (call level)] }) ∧
    (∀ target : Channel, s.phase = .idle → s.linkOpen = true → channel.toNat = channelNumber target →
      let started (lvl : Half) : State :=
        { s with
          txf := encodeSet address target lvl.toInt fade.toInt
          ackp := expectedAck address
          txIdx := 0
          rxb := []
          tmr := 0
          result := .none
          phase := if s.cfgTFlushWindow = 0 then .writing else .flushing
          running := some (call lvl) }
      exec (.set address channel level fade) s = .next (started level) ∧
      exec (.turnOff address channel fade) s = .next (started 0))

/-- R176: `TURN_OFF fade` is `SET 0, fade`, and its success caches off and 0. -/
def Obligations.TurnOffIsSetZero : Prop :=
  (∀ (s : State) (address : Byte) (channel : BitVec 3) (fade : Half),
    exec (.turnOff address channel fade) s = exec (.set address channel 0 fade) s) ∧
  (∀ (s : State) (c : SetCall), cacheWf s.cache = true → s.running = some c → c.level = 0 → s.phase = .idle →
    (s.result = .matched → currentState c.address c.channel (settle s) = { isOn := false, brightness := 0 }) ∧
    (s.result ≠ .matched → (settle s).cache = s.cache))

/-- R174: a success caches the commanded level in the call's controller and in no other, and gives it back. -/
def Obligations.SuccessCachesLevel : Prop :=
  ∀ (s : State) (c : SetCall), cacheWf s.cache = true → s.running = some c → s.phase = .idle → s.result = .matched →
    0 ≤ c.level.toInt → c.level.toInt ≤ 255 →
    let entry : CacheEntry := { isOn := decide (c.level.toInt > 0), brightness := BitVec.ofInt 8 c.level.toInt }
    currentState c.address c.channel (settle s) = entry ∧
    (∀ a ch, (a, ch) ≠ (c.address, c.channel) → currentState a ch (settle s) = currentState a ch s) ∧
    (settle s).returned = s.returned ++ [.success c.address c.channel entry] ∧
    (settle s).running = none ∧ (settle s).toBlock = s.toBlock ∧ (settle s).toPorts = s.toPorts

/-- Any other outcome is a failed attempt: the next one is issued if any is left (behind what waits, log 23), else `CommandFailed` with the
cached on/off state is given back (log 26); the caches are unchanged (rests on R173, R175, R178). -/
def Obligations.FailureKeepsCache : Prop :=
  ∀ (s : State) (c : SetCall), s.running = some c → s.phase = .idle → s.result ≠ .matched →
    (1 < c.left →
      settle s = { s with running := none, held := s.held ++ [.attempt { c with left := c.left - 1 }] }) ∧
    (c.left ≤ 1 →
      settle s = { s with
        running := none
        returned := s.returned ++ [.commandFailed c.address c.channel (currentState c.address c.channel s).isOn] }) ∧
    (settle s).cache = s.cache

/-- Retry bound (rests on R172, R173, R178, R191): where the link never opens, a `SET` makes exactly `RETRY` attempts, counted by the answers
they use up, gives back `CommandFailed` with the cached on/off state (log 26), and leaves the caches as they were. That this takes exactly
`RETRY` steps is the model's: one mover a step (log 1), and the next attempt issued in the step that ends the last (log 23). -/
def Obligations.RetryBoundExact : Prop :=
  ∀ (n : Nat) (s : State) (address : Byte) (channel : BitVec 3) (target : Channel) (level fade : Half) (rest : List Bool),
    s.retryBound = n + 1 → s.phase = .idle → s.linkOpen = false → s.running = none → s.held = [] →
    channel.toNat = channelNumber target → s.openAnswers = List.replicate (n + 1) false ++ rest →
    s.inputs = [signalOf (.set address channel level fade)] →
    steps (n + 1) s = .next { s with
      inputs := []
      openAnswers := rest
      result := .linkUnavailable
      returned := s.returned ++ [.commandFailed address channel (currentState address channel s).isOn] }

/-- A `SET` whose module answers (rests on R94, R141, R145, R147, R151, R158, R172, R174): from an open, idle block with the flush window at `W`,
0 included, and a deadline, the call, `W` ticks, the whole frame and the acknowledgement end with `MATCHED`, the frame on the bus, the level
cached and `Success` given back. That this is a run of `W + 3` steps is the model's: one mover a step (log 1), the frame as one step
(log 7), the acknowledgement as one chunk (log 8), the result read in the step that ends the attempt (log 23). -/
def Obligations.AnsweredSetSucceeds : Prop :=
  ∀ (s : State) (address : Byte) (channel : BitVec 3) (target : Channel) (level fade : Half)
    (l1 t1 l2 t2 l3 t3 l4 t4 : Byte) (cks : BitVec 7),
    MachineInvariant s → s.phase = .idle → s.linkOpen = true → s.held = [] → s.upstream = [] → 0 < s.retryBound →
    0 < s.cfgTTotal.toNat → channel.toNat = channelNumber target →
    0 ≤ level.toInt → level.toInt ≤ 255 →
    (encodeSet address target level.toInt fade.toInt).toList =
      [0xFF, 0xFE, address, 0x57, l1, t1, l2, t2, l3, t3, l4, t4, cks.setWidth 8, 0xFF] →
    s.inputs = signalOf (.set address channel level fade) ::
      (List.replicate s.cfgTFlushWindow.toNat (signalOf .tick) ++
        [signalOf (.setLevels address l1 t1 l2 t2 l3 t3 l4 t4 cks), signalOf (.ack address)]) →
    ∃ t, steps (s.cfgTFlushWindow.toNat + 3) s = .next t ∧
      t.phase = .idle ∧ t.result = .matched ∧ t.running = none ∧
      Memory.bytes t.rxb = [0xFE, address, 0x06, 0xFF] ∧
      t.sent = s.sent ++ (encodeSet address target level.toInt fade.toInt).toList ∧
      currentState address channel t =
        { isOn := decide (level.toInt > 0), brightness := BitVec.ofInt 8 level.toInt } ∧
      t.returned = s.returned ++
        [.success address channel { isOn := decide (level.toInt > 0), brightness := BitVec.ofInt 8 level.toInt }]
end

