-- ==== Sys2Proof/Laws/Decode.lean ====
section
/-! SUPPORT. Words and their bytes: a 45-bit word survives its six bytes, and each field of an encoded command word is the operand it
was made from. -/

namespace Sys2Proof

/-- Six bytes of a 48-bit number, put together again, are the number. -/
theorem word48_bytes (v : BitVec 48) :
    word48 (v.extractLsb' 40 8) (v.extractLsb' 32 8) (v.extractLsb' 24 8) (v.extractLsb' 16 8) (v.extractLsb' 8 8)
      (v.extractLsb' 0 8) = v := by
  simp only [word48]
  rw [BitVec.extractLsb'_append_extractLsb'_eq_extractLsb' (by decide : 40 = 32 + 8),
    BitVec.extractLsb'_append_extractLsb'_eq_extractLsb' (by decide : 32 = 24 + 8),
    BitVec.extractLsb'_append_extractLsb'_eq_extractLsb' (by decide : 24 = 16 + 8),
    BitVec.extractLsb'_append_extractLsb'_eq_extractLsb' (by decide : 16 = 8 + 8),
    BitVec.extractLsb'_append_extractLsb'_eq_extractLsb' (by decide : 8 = 0 + 8)]
  exact BitVec.extractLsb'_eq_self

/-- The word of six bytes is the word they were made from. -/
@[simp] theorem commandWord_bytesOfWord (w : BitVec 45) (port : Port) : commandWord (bytesOfWord w) port = .ok w := by
  have high : (w.setWidth 48).extractLsb' 45 3 = 0 := by ext i hi; simp
  have low : (w.setWidth 48).setWidth 45 = w := by ext i hi; simp
  simp only [commandWord, bytesOfWord, word48_bytes]
  rw [if_pos high, low]

/-! ### The fields of the encoded words -/

section Transact
variable (a : Byte) (c : BitVec 3) (l f : Half)

@[simp] theorem fieldOp_wordTransact : fieldOp (wordTransact a c l f) = 2 := by
  apply BitVec.eq_of_getLsbD_eq
  intro i hi
  simp only [fieldOp, wordTransact, BitVec.getLsbD_extractLsb', BitVec.getLsbD_append]
  grind

@[simp] theorem fieldAddress_wordTransact : fieldAddress (wordTransact a c l f) = a := by
  apply BitVec.eq_of_getLsbD_eq
  intro i hi
  simp only [fieldAddress, wordTransact, BitVec.getLsbD_extractLsb', BitVec.getLsbD_append]
  grind

@[simp] theorem fieldChannel_wordTransact : fieldChannel (wordTransact a c l f) = c := by
  apply BitVec.eq_of_getLsbD_eq
  intro i hi
  simp only [fieldChannel, wordTransact, BitVec.getLsbD_extractLsb', BitVec.getLsbD_append]
  grind

@[simp] theorem fieldLevel_wordTransact : fieldLevel (wordTransact a c l f) = l := by
  apply BitVec.eq_of_getLsbD_eq
  intro i hi
  simp only [fieldLevel, wordTransact, BitVec.getLsbD_extractLsb', BitVec.getLsbD_append]
  grind

@[simp] theorem fieldFade_wordTransact : fieldFade (wordTransact a c l f) = f := by
  apply BitVec.eq_of_getLsbD_eq
  intro i hi
  simp only [fieldFade, wordTransact, BitVec.getLsbD_extractLsb', BitVec.getLsbD_append]
  grind

end Transact

section Cfgwr
variable (reg : BitVec 3) (value : Half)

@[simp] theorem fieldOp_wordCfgwr : fieldOp (wordCfgwr reg value) = 1 := by
  apply BitVec.eq_of_getLsbD_eq
  intro i hi
  simp only [fieldOp, wordCfgwr, BitVec.getLsbD_extractLsb', BitVec.getLsbD_append]
  grind

@[simp] theorem fieldReg_wordCfgwr : fieldReg (wordCfgwr reg value) = reg := by
  apply BitVec.eq_of_getLsbD_eq
  intro i hi
  simp only [fieldReg, wordCfgwr, BitVec.getLsbD_extractLsb', BitVec.getLsbD_append]
  grind

@[simp] theorem fieldValue_wordCfgwr : fieldValue (wordCfgwr reg value) = value := by
  apply BitVec.eq_of_getLsbD_eq
  intro i hi
  simp only [fieldValue, wordCfgwr, BitVec.getLsbD_extractLsb', BitVec.getLsbD_append]
  grind

end Cfgwr

/-! ### Checksum bytes -/

@[simp] theorem checksumByte_high (k : BitVec 7) : (k.setWidth 8).extractLsb' 7 1 = 0#1 := by
  ext i hi; simp

@[simp] theorem checksumByte_low (k : BitVec 7) : (k.setWidth 8).setWidth 7 = k := by
  ext i hi; simp

end Sys2Proof
end

