-- ==== Sys2Proof/Laws/Memory.lean ====
section
/-! SUPPORT. The receive buffer: its cells and its bytes say the same, every operation keeps the canonical form, a read gives what was
appended, and truncation keeps the newest bytes. -/

namespace Sys2Proof.Machine

open Sys2Proof

/-! ### KEEP_LAST -/

theorem keepLast_eq_self {s : List Byte} {n : Nat} (h : s.length ≤ n) : keepLast s n = s := by
  simp [keepLast, Nat.sub_eq_zero_of_le h]

theorem keepLast_length (s : List Byte) (n : Nat) : (keepLast s n).length = min s.length n := by
  simp [keepLast]; omega

theorem keepLast_length_le (s : List Byte) (n : Nat) : (keepLast s n).length ≤ n := by
  rw [keepLast_length]; exact Nat.min_le_right _ _

theorem keepLast_suffix (s : List Byte) (n : Nat) : keepLast s n <:+ s := List.drop_suffix _ _

/-! ### Cells and bytes -/

theorem bytes_ofBytesFrom (i : Nat) (bs : List Byte) : Memory.bytes (Memory.ofBytesFrom i bs) = bs := by
  induction bs generalizing i with
  | nil => rfl
  | cons b rest ih => simpa [Memory.ofBytesFrom, Memory.bytes] using ih (i + 1)

@[simp] theorem bytes_ofBytes (bs : List Byte) : Memory.bytes (Memory.ofBytes bs) = bs :=
  bytes_ofBytesFrom 0 bs

@[simp] theorem bytes_nil : Memory.bytes [] = [] := rfl

@[simp] theorem clear_eq : Memory.clear = [] := rfl

@[simp] theorem len_eq_bytes_length (m : Memory) : (Memory.bytes m).length = Memory.len m := by
  simp [Memory.bytes, Memory.len]

theorem len_ofBytes (bs : List Byte) : Memory.len (Memory.ofBytes bs) = bs.length := by
  rw [← len_eq_bytes_length, bytes_ofBytes]

@[simp] theorem bytes_append (m : Memory) (chunk : List Byte) (n : Nat) :
    Memory.bytes (Memory.append m chunk n) = keepLast (Memory.bytes m ++ chunk) n :=
  bytes_ofBytes _

theorem len_append_le (m : Memory) (chunk : List Byte) (n : Nat) : Memory.len (Memory.append m chunk n) ≤ n := by
  rw [Memory.append, len_ofBytes]; exact keepLast_length_le _ _

/-! ### The canonical form -/

@[simp] theorem wf_nil : Memory.wf [] = true := rfl

@[simp] theorem wf_ofBytes (bs : List Byte) : Memory.wf (Memory.ofBytes bs) = true := by
  simp [Memory.wf]

theorem wf_clear : Memory.wf Memory.clear = true := rfl

@[simp] theorem wf_append (m : Memory) (chunk : List Byte) (n : Nat) : Memory.wf (Memory.append m chunk n) = true :=
  wf_ofBytes _

/-- A canonical buffer is the buffer of its bytes, so equal bytes are equal buffers. -/
theorem ofBytes_bytes_of_wf {m : Memory} (h : Memory.wf m = true) : Memory.ofBytes (Memory.bytes m) = m := by
  simpa [Memory.wf] using (beq_iff_eq.mp h).symm

/-- The indices of a canonical buffer are strictly rising. -/
theorem ofBytesFrom_keys (i : Nat) (bs : List Byte) :
    (Memory.ofBytesFrom i bs).map Prod.fst = List.range' i bs.length := by
  induction bs generalizing i with
  | nil => rfl
  | cons b rest ih => simp [Memory.ofBytesFrom, ih, List.range'_succ]

theorem keys_rising_of_wf {m : Memory} (h : Memory.wf m = true) : (m.map Prod.fst).Pairwise (· < ·) := by
  rw [← ofBytes_bytes_of_wf h, Memory.ofBytes, ofBytesFrom_keys]
  exact List.pairwise_lt_range'

/-! ### Reading one byte -/

theorem readByte_ofBytesFrom (i a : Nat) (bs : List Byte) :
    Memory.readByte (Memory.ofBytesFrom i bs) a = if a < i then none else bs[a - i]? := by
  induction bs generalizing i with
  | nil => simp [Memory.ofBytesFrom, Memory.readByte]
  | cons b rest ih =>
    rw [Memory.ofBytesFrom, Memory.readByte, ih]
    by_cases h : i = a
    · simp [h]
    · by_cases h' : a < i
      · simp [h, h', Nat.lt_succ_of_lt h']
      · have : a - i = (a - (i + 1)) + 1 := by omega
        rw [if_neg h, if_neg (by omega), if_neg h', this, List.getElem?_cons_succ]

@[simp] theorem readByte_ofBytes (a : Nat) (bs : List Byte) : Memory.readByte (Memory.ofBytes bs) a = bs[a]? := by
  simp [Memory.ofBytes, readByte_ofBytesFrom]

/-- Reading one byte of a canonical buffer is indexing its bytes. -/
theorem readByte_of_wf {m : Memory} (h : Memory.wf m = true) (a : Nat) :
    Memory.readByte m a = (Memory.bytes m)[a]? := by
  conv => lhs; rw [← ofBytes_bytes_of_wf h]
  exact readByte_ofBytes a _

/-- What stands at an index after an append: the byte of the truncated sequence. -/
theorem readByte_append (m : Memory) (chunk : List Byte) (n a : Nat) :
    Memory.readByte (Memory.append m chunk n) a = (keepLast (Memory.bytes m ++ chunk) n)[a]? :=
  readByte_ofBytes a _

end Sys2Proof.Machine
end

