-- ==== Sys2Proof/Laws/Ops.lean ====
section
/-! SUPPORT. One lemma for each shared operation that says everything it can do; later proofs cite these. -/

namespace Sys2Proof.Machine

open Sys2Proof

/-! ### Answers of the environment -/

/-- An attempt to open takes the next listed answer, or one free value. -/
theorem drawOpen_cases (s : State) :
    (∃ ok rest, s.openAnswers = ok :: rest ∧ drawOpen s = (ok, { s with openAnswers := rest })) ∨
    (s.openAnswers = [] ∧ drawOpen s = (Config.linkOpens s.draws, { s with draws := s.draws + 1 })) := by
  unfold drawOpen
  cases h : s.openAnswers with
  | nil => exact .inr ⟨rfl, rfl⟩
  | cons ok rest => exact .inl ⟨ok, rest, rfl, rfl⟩

theorem openLink_open {s : State} (h : s.linkOpen = true) : openLink s = (true, s) := by
  simp [openLink, h]

theorem openLink_closed {s : State} (h : s.linkOpen = false) :
    openLink s = ((drawOpen s).1, { (drawOpen s).2 with linkOpen := (drawOpen s).1 }) := by
  simp [openLink, h]

/-- Opening changes at most `LINK_OPEN`, the listed answers and the counter, and the link is open exactly if it says so. -/
theorem openLink_spec (s : State) :
    ∃ ok answers draws, openLink s = (ok, { s with linkOpen := ok, openAnswers := answers, draws := draws }) ∧
      (s.linkOpen = true → ok = true ∧ answers = s.openAnswers ∧ draws = s.draws) := by
  cases h : s.linkOpen with
  | true =>
    refine ⟨true, s.openAnswers, s.draws, ?_, fun _ => ⟨rfl, rfl, rfl⟩⟩
    rw [openLink_open h]
    rcases s with ⟨⟨⟩, _, _⟩
    simp_all
  | false =>
    rw [openLink_closed h]
    obtain ⟨ok, rest, -, hd⟩ | ⟨-, hd⟩ := drawOpen_cases s <;> rw [hd]
    · exact ⟨ok, rest, s.draws, rfl, fun h' => by simp at h'⟩
    · exact ⟨_, s.openAnswers, s.draws + 1, rfl, fun h' => by simp at h'⟩

/-- The arbiter's choice is one of the waiting requests, and only the arbiter's own fields change. -/
theorem drawArbiter_spec {n : Nat} (hn : 0 < n) (s : State) :
    ∃ k picks draws, k < n ∧ drawArbiter n s = (k, { s with arbiterPicks := picks, draws := draws }) := by
  unfold drawArbiter
  split
  · exact ⟨0, s.arbiterPicks, s.draws, hn, rfl⟩
  · cases s.arbiterPicks with
    | nil => exact ⟨Config.arbiter s.draws % n, [], s.draws + 1, Nat.mod_lt _ hn, rfl⟩
    | cons k rest => exact ⟨_, rest, s.draws, Nat.mod_lt _ hn, rfl⟩

/-! ### Configuration -/

/-- A write of a configuration register changes that register alone, or is refused. -/
theorem writeConfig_cases (reg : BitVec 3) (value : Half) (s : State) :
    (reg = 0 ∧ writeConfig reg value s = some { s with cfgTTotal := value }) ∨
    (reg = 1 ∧ writeConfig reg value s = some { s with cfgTChunk := value }) ∨
    (reg = 2 ∧ writeConfig reg value s = some { s with cfgTFlushWindow := value }) ∨
    (reg = 3 ∧ writeConfig reg value s = some { s with cfgTFlushRead := value }) ∨
    (reg = 4 ∧ 4 ≤ value.toNat ∧ value.toNat ≤ 4096 ∧
      writeConfig reg value s = some { s with cfgMaxBuf := value.setWidth 13 }) ∨
    (reg = 4 ∧ ¬(4 ≤ value.toNat ∧ value.toNat ≤ 4096) ∧ writeConfig reg value s = none) ∨
    (5 ≤ reg.toNat ∧ writeConfig reg value s = none) := by
  have hr : reg = 0 ∨ reg = 1 ∨ reg = 2 ∨ reg = 3 ∨ reg = 4 ∨ reg = 5 ∨ reg = 6 ∨ reg = 7 := by
    revert reg; decide
  have h4 : writeConfig 4 value s =
      if 4 ≤ value.toNat ∧ value.toNat ≤ 4096 then some { s with cfgMaxBuf := value.setWidth 13 } else none := rfl
  rcases hr with h | h | h | h | h | h | h | h <;> subst h
  · exact .inl ⟨rfl, rfl⟩
  · exact .inr (.inl ⟨rfl, rfl⟩)
  · exact .inr (.inr (.inl ⟨rfl, rfl⟩))
  · exact .inr (.inr (.inr (.inl ⟨rfl, rfl⟩)))
  · by_cases hv : 4 ≤ value.toNat ∧ value.toNat ≤ 4096
    · exact .inr (.inr (.inr (.inr (.inl ⟨rfl, hv.1, hv.2, by rw [h4, if_pos hv]⟩))))
    · exact .inr (.inr (.inr (.inr (.inr (.inl ⟨rfl, hv, by rw [h4, if_neg hv]⟩)))))
  · exact .inr (.inr (.inr (.inr (.inr (.inr ⟨by decide, rfl⟩)))))
  · exact .inr (.inr (.inr (.inr (.inr (.inr ⟨by decide, rfl⟩)))))
  · exact .inr (.inr (.inr (.inr (.inr (.inr ⟨by decide, rfl⟩)))))

/-! ### The caches -/

theorem cacheFind_cachePut (key key' : Nat) (e : CacheEntry) (cache : List (Nat × CacheEntry)) (h : cacheWf cache = true) :
    cacheFind key' (cachePut key e cache) = if key' = key then some e else cacheFind key' cache := by
  induction cache with
  | nil => simp [cachePut, cacheFind, eq_comm]
  | cons p rest ih =>
    obtain ⟨k, e'⟩ := p
    have hrest : cacheWf rest = true := by cases rest <;> simp_all [cacheWf]
    have hlow : ∀ x, x < k → cacheFind x ((k, e') :: rest) = none := by
      clear ih hrest
      induction rest generalizing k e' with
      | nil => intro x hx; simp [cacheFind]; omega
      | cons q rest' ih' =>
        obtain ⟨k2, e2⟩ := q
        simp only [cacheWf, Bool.and_eq_true, decide_eq_true_eq] at h
        intro x hx
        have := ih' k2 e2 h.2 x (by omega)
        simp only [cacheFind] at this ⊢
        rw [if_neg (by omega)]; exact this
    simp only [cachePut]
    split
    · rename_i hlt
      simp only [cacheFind]
      by_cases hk : key' = key <;> simp [hk, eq_comm] <;> omega
    · split
      · rename_i heq
        simp only [cacheFind, heq]
        by_cases hk : key' = k <;> simp [hk, eq_comm]
      · simp only [cacheFind, ih hrest]
        by_cases hk : k = key'
        · simp [hk]; omega
        · simp [hk]

theorem cacheWf_cachePut (key : Nat) (e : CacheEntry) (cache : List (Nat × CacheEntry)) (h : cacheWf cache = true) :
    cacheWf (cachePut key e cache) = true := by
  induction cache with
  | nil => rfl
  | cons p rest ih =>
    obtain ⟨k, e'⟩ := p
    have hrest : cacheWf rest = true := by cases rest <;> simp_all [cacheWf]
    simp only [cachePut]
    split
    · simp_all [cacheWf]
    · split
      · rename_i hne heq
        subst heq
        cases rest <;> simp_all [cacheWf]
      · have hlt : k < key := by omega
        cases rest with
        | nil => simp [cachePut, cacheWf, hlt]
        | cons q rest' =>
          obtain ⟨k2, e2⟩ := q
          have h1 : k < k2 := by simp_all [cacheWf]
          have ih := ih hrest
          simp only [cachePut] at ih ⊢
          by_cases hk : key < k2
          · simp_all [cacheWf]
          · by_cases hk' : key = k2
            · simp_all [cacheWf]
            · rw [if_neg hk, if_neg hk'] at ih ⊢
              simp only [cacheWf, Bool.and_eq_true, decide_eq_true_eq]
              exact ⟨h1, ih⟩

/-! ### The reference host -/

/-- The host does nothing unless its call's attempt has ended; then it records a success, issues the next attempt or gives up. -/
theorem settle_cases (s : State) :
    settle s = s ∨
    ∃ c, s.running = some c ∧ s.phase = .idle ∧
      ((s.result = .matched ∧ settle s = succeed c s) ∨
       (s.result ≠ .matched ∧ c.left ≤ 1 ∧ settle s = giveUp c s) ∨
       (s.result ≠ .matched ∧ 1 < c.left ∧
        settle s = { s with running := none, held := s.held ++ [.attempt { c with left := c.left - 1 }] })) := by
  unfold settle
  split
  · rename_i c hr hp
    refine .inr ⟨c, hr, hp, ?_⟩
    by_cases hm : s.result = .matched
    · exact .inl ⟨hm, by simp [hm]⟩
    · by_cases hl : c.left ≤ 1
      · exact .inr (.inl ⟨hm, hl, by simp [hm, attemptFailed, hl]⟩)
      · exact .inr (.inr ⟨hm, by omega, by simp [hm, attemptFailed, hl]⟩)
  · exact .inl rfl

/-- A controller's cached fields depend on the caches alone. -/
theorem currentState_congr {s t : State} (h : t.cache = s.cache) (address : Byte) (channel : BitVec 3) :
    currentState address channel t = currentState address channel s := by
  simp only [currentState, h]

/-- A success gives back and caches one entry, on exactly if the commanded level is above 0; it changes at most the host's fields and the
counter. -/
theorem succeed_spec (c : SetCall) (s : State) :
    ∃ brightness draws,
      let entry : CacheEntry := { isOn := decide (sext16 c.level > 0), brightness := brightness }
      succeed c s = { s with
        draws := draws
        running := none
        cache := cachePut (controllerKey c.address c.channel) entry s.cache
        returned := s.returned ++ [.success c.address c.channel entry] } ∧
      (0 ≤ sext16 c.level ∧ sext16 c.level ≤ 255 → brightness = BitVec.ofInt 8 (sext16 c.level) ∧ draws = s.draws) := by
  by_cases h : 0 ≤ sext16 c.level ∧ sext16 c.level ≤ 255
  · refine ⟨BitVec.ofInt 8 (sext16 c.level), s.draws, ?_, fun _ => ⟨rfl, rfl⟩⟩
    simp only [succeed, appliedEntry, cachedBrightness, if_pos h]
  · refine ⟨Config.freeByte s.draws, s.draws + 1, ?_, fun h' => absurd h' h⟩
    simp only [succeed, appliedEntry, cachedBrightness, if_neg h, drawByte]

theorem settle_of_no_call {s : State} (h : s.running = none) : settle s = s := by
  simp [settle, h]

theorem settle_of_busy {s : State} (h : s.phase ≠ .idle) : settle s = s := by
  unfold settle; split <;> simp_all

end Sys2Proof.Machine
end

