-- ==== Sys2Proof/Laws/PerInstr.lean ====
section
/-! SUPPORT. Families of statements made for every instruction, one lemma per constructor. `EncodedSize`: how many bytes the encoding of an
instruction has, from the widths of spec/opcode_table.json (112, 32, 45 and 3 bits, in whole bytes; a chunk adds its own bytes). -/

namespace Sys2Proof.Laws.EncodedSize

open Sys2Proof

/-- The size of an instruction's encoding in bytes. -/
def size : Instr → Nat
  | .setLevels _ _ _ _ _ _ _ _ _ _ => 14
  | .ack _ => 4
  | .connect => 6
  | .cfgwr _ _ => 6
  | .transact _ _ _ _ => 6
  | .cmdReserved => 6
  | .tick => 1
  | .rxChunk c => 2 + c.rest.length
  | .rxErr => 1
  | .txAccept => 1
  | .txErr => 1
  | .set _ _ _ _ => 6
  | .turnOff _ _ _ => 6

/-- The encoding has exactly its size. -/
def Statement (i : Instr) : Prop := (encode i).length = size i

theorem setLevels (addr l1 t1 l2 t2 l3 t3 l4 t4 : Byte) (cks : BitVec 7) :
    Statement (.setLevels addr l1 t1 l2 t2 l3 t3 l4 t4 cks) := rfl
theorem ack (addr : Byte) : Statement (.ack addr) := rfl
theorem connect : Statement .connect := rfl
theorem cfgwr (reg : BitVec 3) (value : Half) : Statement (.cfgwr reg value) := rfl
theorem transact (address : Byte) (channel : BitVec 3) (level fade : Half) :
    Statement (.transact address channel level fade) := rfl
theorem cmdReserved : Statement .cmdReserved := rfl
theorem tick : Statement .tick := rfl
theorem rxChunk (chunk : Chunk) : Statement (.rxChunk chunk) := by
  show chunk.rest.length + 1 + 1 = 2 + chunk.rest.length
  omega
theorem rxErr : Statement .rxErr := rfl
theorem txAccept : Statement .txAccept := rfl
theorem txErr : Statement .txErr := rfl
theorem set (address : Byte) (channel : BitVec 3) (level fade : Half) : Statement (.set address channel level fade) := rfl
theorem turnOff (address : Byte) (channel : BitVec 3) (fade : Half) : Statement (.turnOff address channel fade) := rfl

end Sys2Proof.Laws.EncodedSize
end

