-- ==== Sys2Proof/Laws/Run.lean ====
section
/-! SUPPORT. Running: one step and the rest, and the host's own run is the same. -/

namespace Sys2Proof.Machine

open Sys2Proof

@[simp] theorem steps_zero (s : State) : steps 0 s = .next s := rfl

theorem steps_next {s t : State} (k : Nat) (h : step s = .next t) : steps (k + 1) s = steps k t := by
  simp only [steps, h]

/-- A run of `j` steps and then of `k`. -/
theorem steps_add {s t : State} (j k : Nat) (h : steps j s = .next t) : steps (j + k) s = steps k t := by
  induction j generalizing s with
  | zero => cases h; rw [Nat.zero_add]
  | succ j ih =>
    cases hu : step s with
    | next u =>
      rw [steps_next _ hu] at h
      rw [Nat.add_right_comm, steps_next _ hu]
      exact ih h
    | fault f => simp [steps, hu] at h
    | refused r => simp [steps, hu] at h

/-- The host's run, one step and the rest. -/
theorem host_run_succ (M : Host.Core) (k : Nat) (s : M.State) :
    M.run (k + 1) s =
      match M.step s with
      | .next t => M.run k t
      | .fault f => .fault f
      | .refused r => .refused r := by
  rw [Host.Core.run]
  all_goals (cases M.step s <;> rfl)

/-- `steps` is the run of the host's interface. -/
theorem core_run_eq_steps (k : Nat) (s : State) : Host.Core.run core k s = steps k s := by
  induction k generalizing s with
  | zero => rfl
  | succ k ih =>
    have hrun := host_run_succ core k s
    have hcore : Host.Core.step core s = step s := rfl
    cases hu : step s with
    | next u =>
      rw [hcore, hu] at hrun
      rw [steps_next _ hu]
      exact hrun.trans (ih u)
    | fault f =>
      rw [hcore, hu] at hrun
      simp only [steps, hu]
      exact hrun
    | refused r =>
      rw [hcore, hu] at hrun
      simp only [steps, hu]
      exact hrun

theorem execAll_next {s t : State} {i : Instr} (is : List Instr) (h : exec i s = .next t) :
    execAll (i :: is) s = execAll is t := by
  simp only [execAll, h]

end Sys2Proof.Machine
end

