-- ==== Sys2Proof/Laws/State.lean ====
section
/-! SUPPORT. One lemma per field for each update that is written once and used by many meanings: `raise`, `countTick`, `drawByte`,
`startTransaction`, `resetBlock`. Each is true by unfolding once, so that no later proof unfolds the update. -/

namespace Sys2Proof.Machine

open Sys2Proof

/-! ### `raise` -/

@[simp] theorem raise_txf (f : Result) (s : State) : (raise f s).txf = s.txf := rfl
@[simp] theorem raise_ackp (f : Result) (s : State) : (raise f s).ackp = s.ackp := rfl
@[simp] theorem raise_phase (f : Result) (s : State) : (raise f s).phase = .idle := rfl
@[simp] theorem raise_txIdx (f : Result) (s : State) : (raise f s).txIdx = s.txIdx := rfl
@[simp] theorem raise_result (f : Result) (s : State) : (raise f s).result = f := rfl
@[simp] theorem raise_linkOpen (f : Result) (s : State) : (raise f s).linkOpen = s.linkOpen := rfl
@[simp] theorem raise_tmr (f : Result) (s : State) : (raise f s).tmr = s.tmr := rfl
@[simp] theorem raise_rxb (f : Result) (s : State) : (raise f s).rxb = s.rxb := rfl
@[simp] theorem raise_cfgTTotal (f : Result) (s : State) : (raise f s).cfgTTotal = s.cfgTTotal := rfl
@[simp] theorem raise_cfgTChunk (f : Result) (s : State) : (raise f s).cfgTChunk = s.cfgTChunk := rfl
@[simp] theorem raise_cfgTFlushWindow (f : Result) (s : State) : (raise f s).cfgTFlushWindow = s.cfgTFlushWindow := rfl
@[simp] theorem raise_cfgTFlushRead (f : Result) (s : State) : (raise f s).cfgTFlushRead = s.cfgTFlushRead := rfl
@[simp] theorem raise_cfgMaxBuf (f : Result) (s : State) : (raise f s).cfgMaxBuf = s.cfgMaxBuf := rfl
@[simp] theorem raise_inputs (f : Result) (s : State) : (raise f s).inputs = s.inputs := rfl
@[simp] theorem raise_upstream (f : Result) (s : State) : (raise f s).upstream = s.upstream := rfl
@[simp] theorem raise_held (f : Result) (s : State) : (raise f s).held = s.held := rfl
@[simp] theorem raise_sent (f : Result) (s : State) : (raise f s).sent = s.sent := rfl
@[simp] theorem raise_openAnswers (f : Result) (s : State) : (raise f s).openAnswers = s.openAnswers := rfl
@[simp] theorem raise_arbiterPicks (f : Result) (s : State) : (raise f s).arbiterPicks = s.arbiterPicks := rfl
@[simp] theorem raise_draws (f : Result) (s : State) : (raise f s).draws = s.draws := rfl
@[simp] theorem raise_running (f : Result) (s : State) : (raise f s).running = s.running := rfl
@[simp] theorem raise_cache (f : Result) (s : State) : (raise f s).cache = s.cache := rfl
@[simp] theorem raise_returned (f : Result) (s : State) : (raise f s).returned = s.returned := rfl
@[simp] theorem raise_retryBound (f : Result) (s : State) : (raise f s).retryBound = s.retryBound := rfl

/-! ### `countTick` -/

@[simp] theorem countTick_txf (s : State) : (countTick s).txf = s.txf := rfl
@[simp] theorem countTick_ackp (s : State) : (countTick s).ackp = s.ackp := rfl
@[simp] theorem countTick_phase (s : State) : (countTick s).phase = s.phase := rfl
@[simp] theorem countTick_txIdx (s : State) : (countTick s).txIdx = s.txIdx := rfl
@[simp] theorem countTick_result (s : State) : (countTick s).result = s.result := rfl
@[simp] theorem countTick_linkOpen (s : State) : (countTick s).linkOpen = s.linkOpen := rfl
@[simp] theorem countTick_tmr (s : State) : (countTick s).tmr = s.tmr + 1 := rfl
@[simp] theorem countTick_rxb (s : State) : (countTick s).rxb = s.rxb := rfl
@[simp] theorem countTick_cfgTTotal (s : State) : (countTick s).cfgTTotal = s.cfgTTotal := rfl
@[simp] theorem countTick_cfgTChunk (s : State) : (countTick s).cfgTChunk = s.cfgTChunk := rfl
@[simp] theorem countTick_cfgTFlushWindow (s : State) : (countTick s).cfgTFlushWindow = s.cfgTFlushWindow := rfl
@[simp] theorem countTick_cfgTFlushRead (s : State) : (countTick s).cfgTFlushRead = s.cfgTFlushRead := rfl
@[simp] theorem countTick_cfgMaxBuf (s : State) : (countTick s).cfgMaxBuf = s.cfgMaxBuf := rfl
@[simp] theorem countTick_inputs (s : State) : (countTick s).inputs = s.inputs := rfl
@[simp] theorem countTick_upstream (s : State) : (countTick s).upstream = s.upstream := rfl
@[simp] theorem countTick_held (s : State) : (countTick s).held = s.held := rfl
@[simp] theorem countTick_sent (s : State) : (countTick s).sent = s.sent := rfl
@[simp] theorem countTick_openAnswers (s : State) : (countTick s).openAnswers = s.openAnswers := rfl
@[simp] theorem countTick_arbiterPicks (s : State) : (countTick s).arbiterPicks = s.arbiterPicks := rfl
@[simp] theorem countTick_draws (s : State) : (countTick s).draws = s.draws := rfl
@[simp] theorem countTick_running (s : State) : (countTick s).running = s.running := rfl
@[simp] theorem countTick_cache (s : State) : (countTick s).cache = s.cache := rfl
@[simp] theorem countTick_returned (s : State) : (countTick s).returned = s.returned := rfl
@[simp] theorem countTick_retryBound (s : State) : (countTick s).retryBound = s.retryBound := rfl

/-! ### `startTransaction` -/

@[simp] theorem startTransaction_txf (frame : Frame) (pattern : Pattern) (s : State) : (startTransaction frame pattern s).txf = frame := rfl
@[simp] theorem startTransaction_ackp (frame : Frame) (pattern : Pattern) (s : State) : (startTransaction frame pattern s).ackp = pattern := rfl
@[simp] theorem startTransaction_phase (frame : Frame) (pattern : Pattern) (s : State) : (startTransaction frame pattern s).phase = (if s.cfgTFlushWindow = 0 then .writing else .flushing) := rfl
@[simp] theorem startTransaction_txIdx (frame : Frame) (pattern : Pattern) (s : State) : (startTransaction frame pattern s).txIdx = 0 := rfl
@[simp] theorem startTransaction_result (frame : Frame) (pattern : Pattern) (s : State) : (startTransaction frame pattern s).result = .none := rfl
@[simp] theorem startTransaction_linkOpen (frame : Frame) (pattern : Pattern) (s : State) : (startTransaction frame pattern s).linkOpen = s.linkOpen := rfl
@[simp] theorem startTransaction_tmr (frame : Frame) (pattern : Pattern) (s : State) : (startTransaction frame pattern s).tmr = 0 := rfl
@[simp] theorem startTransaction_rxb (frame : Frame) (pattern : Pattern) (s : State) : (startTransaction frame pattern s).rxb = [] := rfl
@[simp] theorem startTransaction_cfgTTotal (frame : Frame) (pattern : Pattern) (s : State) : (startTransaction frame pattern s).cfgTTotal = s.cfgTTotal := rfl
@[simp] theorem startTransaction_cfgTChunk (frame : Frame) (pattern : Pattern) (s : State) : (startTransaction frame pattern s).cfgTChunk = s.cfgTChunk := rfl
@[simp] theorem startTransaction_cfgTFlushWindow (frame : Frame) (pattern : Pattern) (s : State) : (startTransaction frame pattern s).cfgTFlushWindow = s.cfgTFlushWindow := rfl
@[simp] theorem startTransaction_cfgTFlushRead (frame : Frame) (pattern : Pattern) (s : State) : (startTransaction frame pattern s).cfgTFlushRead = s.cfgTFlushRead := rfl
@[simp] theorem startTransaction_cfgMaxBuf (frame : Frame) (pattern : Pattern) (s : State) : (startTransaction frame pattern s).cfgMaxBuf = s.cfgMaxBuf := rfl
@[simp] theorem startTransaction_inputs (frame : Frame) (pattern : Pattern) (s : State) : (startTransaction frame pattern s).inputs = s.inputs := rfl
@[simp] theorem startTransaction_upstream (frame : Frame) (pattern : Pattern) (s : State) : (startTransaction frame pattern s).upstream = s.upstream := rfl
@[simp] theorem startTransaction_held (frame : Frame) (pattern : Pattern) (s : State) : (startTransaction frame pattern s).held = s.held := rfl
@[simp] theorem startTransaction_sent (frame : Frame) (pattern : Pattern) (s : State) : (startTransaction frame pattern s).sent = s.sent := rfl
@[simp] theorem startTransaction_openAnswers (frame : Frame) (pattern : Pattern) (s : State) : (startTransaction frame pattern s).openAnswers = s.openAnswers := rfl
@[simp] theorem startTransaction_arbiterPicks (frame : Frame) (pattern : Pattern) (s : State) : (startTransaction frame pattern s).arbiterPicks = s.arbiterPicks := rfl
@[simp] theorem startTransaction_draws (frame : Frame) (pattern : Pattern) (s : State) : (startTransaction frame pattern s).draws = s.draws := rfl
@[simp] theorem startTransaction_running (frame : Frame) (pattern : Pattern) (s : State) : (startTransaction frame pattern s).running = s.running := rfl
@[simp] theorem startTransaction_cache (frame : Frame) (pattern : Pattern) (s : State) : (startTransaction frame pattern s).cache = s.cache := rfl
@[simp] theorem startTransaction_returned (frame : Frame) (pattern : Pattern) (s : State) : (startTransaction frame pattern s).returned = s.returned := rfl
@[simp] theorem startTransaction_retryBound (frame : Frame) (pattern : Pattern) (s : State) : (startTransaction frame pattern s).retryBound = s.retryBound := rfl

/-! ### `resetBlock` -/

@[simp] theorem resetBlock_txf (s : State) : (resetBlock s).txf = (Block.resetAt s.draws).txf := rfl
@[simp] theorem resetBlock_ackp (s : State) : (resetBlock s).ackp = (Block.resetAt s.draws).ackp := rfl
@[simp] theorem resetBlock_phase (s : State) : (resetBlock s).phase = (Block.resetAt s.draws).phase := rfl
@[simp] theorem resetBlock_txIdx (s : State) : (resetBlock s).txIdx = (Block.resetAt s.draws).txIdx := rfl
@[simp] theorem resetBlock_result (s : State) : (resetBlock s).result = (Block.resetAt s.draws).result := rfl
@[simp] theorem resetBlock_linkOpen (s : State) : (resetBlock s).linkOpen = (Block.resetAt s.draws).linkOpen := rfl
@[simp] theorem resetBlock_tmr (s : State) : (resetBlock s).tmr = (Block.resetAt s.draws).tmr := rfl
@[simp] theorem resetBlock_rxb (s : State) : (resetBlock s).rxb = (Block.resetAt s.draws).rxb := rfl
@[simp] theorem resetBlock_cfgTTotal (s : State) : (resetBlock s).cfgTTotal = (Block.resetAt s.draws).cfgTTotal := rfl
@[simp] theorem resetBlock_cfgTChunk (s : State) : (resetBlock s).cfgTChunk = (Block.resetAt s.draws).cfgTChunk := rfl
@[simp] theorem resetBlock_cfgTFlushWindow (s : State) : (resetBlock s).cfgTFlushWindow = (Block.resetAt s.draws).cfgTFlushWindow := rfl
@[simp] theorem resetBlock_cfgTFlushRead (s : State) : (resetBlock s).cfgTFlushRead = (Block.resetAt s.draws).cfgTFlushRead := rfl
@[simp] theorem resetBlock_cfgMaxBuf (s : State) : (resetBlock s).cfgMaxBuf = (Block.resetAt s.draws).cfgMaxBuf := rfl
@[simp] theorem resetBlock_inputs (s : State) : (resetBlock s).inputs = s.inputs := rfl
@[simp] theorem resetBlock_upstream (s : State) : (resetBlock s).upstream = s.upstream := rfl
@[simp] theorem resetBlock_held (s : State) : (resetBlock s).held = s.held := rfl
@[simp] theorem resetBlock_sent (s : State) : (resetBlock s).sent = s.sent := rfl
@[simp] theorem resetBlock_openAnswers (s : State) : (resetBlock s).openAnswers = s.openAnswers := rfl
@[simp] theorem resetBlock_arbiterPicks (s : State) : (resetBlock s).arbiterPicks = s.arbiterPicks := rfl
@[simp] theorem resetBlock_draws (s : State) : (resetBlock s).draws = s.draws + 18 := rfl
@[simp] theorem resetBlock_running (s : State) : (resetBlock s).running = s.running := rfl
@[simp] theorem resetBlock_cache (s : State) : (resetBlock s).cache = s.cache := rfl
@[simp] theorem resetBlock_returned (s : State) : (resetBlock s).returned = s.returned := rfl
@[simp] theorem resetBlock_retryBound (s : State) : (resetBlock s).retryBound = s.retryBound := rfl

/-! ### `drawByte` -/

@[simp] theorem drawByte_txf (s : State) : (drawByte s).2.txf = s.txf := rfl
@[simp] theorem drawByte_ackp (s : State) : (drawByte s).2.ackp = s.ackp := rfl
@[simp] theorem drawByte_phase (s : State) : (drawByte s).2.phase = s.phase := rfl
@[simp] theorem drawByte_txIdx (s : State) : (drawByte s).2.txIdx = s.txIdx := rfl
@[simp] theorem drawByte_result (s : State) : (drawByte s).2.result = s.result := rfl
@[simp] theorem drawByte_linkOpen (s : State) : (drawByte s).2.linkOpen = s.linkOpen := rfl
@[simp] theorem drawByte_tmr (s : State) : (drawByte s).2.tmr = s.tmr := rfl
@[simp] theorem drawByte_rxb (s : State) : (drawByte s).2.rxb = s.rxb := rfl
@[simp] theorem drawByte_cfgTTotal (s : State) : (drawByte s).2.cfgTTotal = s.cfgTTotal := rfl
@[simp] theorem drawByte_cfgTChunk (s : State) : (drawByte s).2.cfgTChunk = s.cfgTChunk := rfl
@[simp] theorem drawByte_cfgTFlushWindow (s : State) : (drawByte s).2.cfgTFlushWindow = s.cfgTFlushWindow := rfl
@[simp] theorem drawByte_cfgTFlushRead (s : State) : (drawByte s).2.cfgTFlushRead = s.cfgTFlushRead := rfl
@[simp] theorem drawByte_cfgMaxBuf (s : State) : (drawByte s).2.cfgMaxBuf = s.cfgMaxBuf := rfl
@[simp] theorem drawByte_inputs (s : State) : (drawByte s).2.inputs = s.inputs := rfl
@[simp] theorem drawByte_upstream (s : State) : (drawByte s).2.upstream = s.upstream := rfl
@[simp] theorem drawByte_held (s : State) : (drawByte s).2.held = s.held := rfl
@[simp] theorem drawByte_sent (s : State) : (drawByte s).2.sent = s.sent := rfl
@[simp] theorem drawByte_openAnswers (s : State) : (drawByte s).2.openAnswers = s.openAnswers := rfl
@[simp] theorem drawByte_arbiterPicks (s : State) : (drawByte s).2.arbiterPicks = s.arbiterPicks := rfl
@[simp] theorem drawByte_draws (s : State) : (drawByte s).2.draws = s.draws + 1 := rfl
@[simp] theorem drawByte_running (s : State) : (drawByte s).2.running = s.running := rfl
@[simp] theorem drawByte_cache (s : State) : (drawByte s).2.cache = s.cache := rfl
@[simp] theorem drawByte_returned (s : State) : (drawByte s).2.returned = s.returned := rfl
@[simp] theorem drawByte_retryBound (s : State) : (drawByte s).2.retryBound = s.retryBound := rfl

@[simp] theorem drawByte_value (s : State) : (drawByte s).1 = Config.freeByte s.draws := rfl

/-! ### The block after a reset -/

@[simp] theorem resetAt_phase (n : Nat) : (Block.resetAt n).phase = .idle := rfl
@[simp] theorem resetAt_txIdx (n : Nat) : (Block.resetAt n).txIdx = 0 := rfl
@[simp] theorem resetAt_result (n : Nat) : (Block.resetAt n).result = .none := rfl
@[simp] theorem resetAt_linkOpen (n : Nat) : (Block.resetAt n).linkOpen = false := rfl
@[simp] theorem resetAt_tmr (n : Nat) : (Block.resetAt n).tmr = 0 := rfl
@[simp] theorem resetAt_rxb (n : Nat) : (Block.resetAt n).rxb = [] := rfl
@[simp] theorem resetAt_cfgTTotal (n : Nat) : (Block.resetAt n).cfgTTotal = 800 := rfl
@[simp] theorem resetAt_cfgTChunk (n : Nat) : (Block.resetAt n).cfgTChunk = 120 := rfl
@[simp] theorem resetAt_cfgTFlushWindow (n : Nat) : (Block.resetAt n).cfgTFlushWindow = 80 := rfl
@[simp] theorem resetAt_cfgTFlushRead (n : Nat) : (Block.resetAt n).cfgTFlushRead = 10 := rfl
@[simp] theorem resetAt_cfgMaxBuf (n : Nat) : (Block.resetAt n).cfgMaxBuf = 4096 := rfl

end Sys2Proof.Machine
end

