-- ==== Sys2Proof/Laws/Sequencer.lean ====
section
/-! SUPPORT. What each operation of the sequencer can do, one lemma an operation: later proofs cite these in place of unfolding. -/

namespace Sys2Proof.Machine

open Sys2Proof

/-! ### The arms of `exec` -/

section Arms
variable (s : State)

@[simp] theorem exec_connect : exec .connect s = .next (submit (.command .connect) s) := rfl
@[simp] theorem exec_cfgwr (r : BitVec 3) (v : Half) : exec (.cfgwr r v) s = .next (submit (.command (.cfgwr r v)) s) := rfl
@[simp] theorem exec_transact (a : Byte) (c : BitVec 3) (l f : Half) :
    exec (.transact a c l f) s = .next (submit (.command (.transact a c l f)) s) := rfl
@[simp] theorem exec_cmdReserved : exec .cmdReserved s = .next (submit (.command .reserved) s) := rfl
@[simp] theorem exec_tick : exec .tick s = .next (tickBlock s) := rfl
@[simp] theorem exec_rxChunk (c : Chunk) : exec (.rxChunk c) s = .next (receiveChunk c s) := rfl
@[simp] theorem exec_rxErr : exec .rxErr s = .next (receiveError s) := rfl
@[simp] theorem exec_txAccept : exec .txAccept s = .next (transmitByte s) := rfl
@[simp] theorem exec_txErr : exec .txErr s = .next (transmitError s) := rfl
@[simp] theorem exec_setLevels (a l1 t1 l2 t2 l3 t3 l4 t4 : Byte) (k : BitVec 7) :
    exec (.setLevels a l1 t1 l2 t2 l3 t3 l4 t4 k) s =
      .next (transmitFrame (fieldsFrame a l1 t1 l2 t2 l3 t3 l4 t4 k) s) := rfl
@[simp] theorem exec_ack (a : Byte) : exec (.ack a) s = .next (receiveChunk (ackChunk a) s) := rfl
@[simp] theorem exec_set (a : Byte) (c : BitVec 3) (l f : Half) :
    exec (.set a c l f) s = .next (startCall a c l f s) := rfl
@[simp] theorem exec_turnOff (a : Byte) (c : BitVec 3) (f : Half) :
    exec (.turnOff a c f) s = .next (startCall a c 0 f s) := rfl

end Arms

/-! ### Operands -/

theorem channelOf_eq_some {c : BitVec 3} {target : Channel} : channelOf c = some target ↔ c.toNat = channelNumber target := by
  revert c; cases target <;> decide

theorem channelOf_eq_none {c : BitVec 3} : channelOf c = none ↔ c.toNat = 0 ∨ 5 ≤ c.toNat := by
  revert c; decide

/-- A frame is latched only for a legal channel, and it is that channel's. -/
theorem operandFrame_eq_some {a : Byte} {c : BitVec 3} {l f : Half} {frame : Frame} :
    operandFrame a c l f = some frame ↔
      ∃ target, c.toNat = channelNumber target ∧ frame = encodeSet a target l.toInt f.toInt := by
  unfold operandFrame
  cases h : channelOf c with
  | none =>
    simp only [reduceCtorEq, false_iff]
    rintro ⟨target, ht, -⟩
    rw [← channelOf_eq_some, h] at ht
    cases ht
  | some ch =>
    simp only [Option.some.injEq]
    constructor
    · rintro rfl
      exact ⟨ch, channelOf_eq_some.mp h, rfl⟩
    · rintro ⟨target, ht, rfl⟩
      rw [← channelOf_eq_some, h] at ht
      cases ht
      rfl

/-! ### Commands -/

/-- `CONNECT` changes the link flag and the result, and the answers of the environment. -/
theorem acceptConnect_spec (s : State) :
    ∃ ok answers draws, acceptConnect s =
        { s with
          linkOpen := ok
          openAnswers := answers
          draws := draws
          result := if ok then .none else .linkUnavailable
          phase := if ok then s.phase else .idle } ∧
      (s.linkOpen = true → ok = true ∧ answers = s.openAnswers ∧ draws = s.draws) := by
  obtain ⟨ok, answers, draws, h, hopen⟩ := openLink_spec s
  refine ⟨ok, answers, draws, ?_, hopen⟩
  unfold acceptConnect
  rw [h]
  cases ok <;> rfl

/-- `CFGWR` writes one register and clears the result, or is refused. -/
theorem acceptCfgwr_cases (reg : BitVec 3) (value : Half) (s : State) :
    (∃ t, writeConfig reg value s = some t ∧ acceptCfgwr reg value s = { t with result := .none }) ∨
    (writeConfig reg value s = none ∧ acceptCfgwr reg value s = raise .badCommand s) := by
  unfold acceptCfgwr
  cases h : writeConfig reg value s with
  | none => exact .inr ⟨rfl, rfl⟩
  | some t => exact .inl ⟨t, rfl, rfl⟩

/-- `TRANSACT` has three ends: the channel is refused, the link cannot be opened, or the transaction starts on an open link. -/
theorem acceptTransact_cases (a : Byte) (c : BitVec 3) (l f : Half) (s : State) :
    (operandFrame a c l f = none ∧ acceptTransact a c l f s = raise .badChannel s) ∨
    (∃ frame answers draws, operandFrame a c l f = some frame ∧ s.linkOpen = false ∧
      acceptTransact a c l f s =
        raise .linkUnavailable { s with openAnswers := answers, draws := draws }) ∨
    (∃ frame answers draws, operandFrame a c l f = some frame ∧
      acceptTransact a c l f s = startTransaction frame (expectedAck a)
        { s with linkOpen := true, openAnswers := answers, draws := draws }) := by
  unfold acceptTransact
  cases hf : operandFrame a c l f with
  | none => exact .inl ⟨rfl, rfl⟩
  | some frame =>
    obtain ⟨ok, answers, draws, h, hopen⟩ := openLink_spec s
    rw [h]
    cases ok with
    | true => exact .inr (.inr ⟨frame, answers, draws, rfl, rfl⟩)
    | false =>
      have hl : s.linkOpen = false := by
        cases hs : s.linkOpen with
        | false => rfl
        | true => exact absurd (hopen hs).1 (by simp)
      refine .inr (.inl ⟨frame, answers, draws, rfl, hl, ?_⟩)
      simp [raise, hl]

theorem submit_idle {s : State} (r : Request) (h : s.phase = .idle) : submit r s = acceptRequest r s := by
  simp [submit, h]

theorem submit_busy {s : State} (r : Request) (h : s.phase ≠ .idle) : submit r s = { s with held := s.held ++ [r] } := by
  unfold submit
  cases hp : s.phase <;> simp_all

/-- The arbiter presents one of the waiting requests. -/
theorem presentHeld_spec {s : State} (h : s.held ≠ []) :
    ∃ k r picks draws, s.held[k]? = some r ∧
      presentHeld s = acceptRequest r
        { s with held := s.held.eraseIdx k, arbiterPicks := picks, draws := draws } := by
  obtain ⟨k, picks, draws, hk, hd⟩ := drawArbiter_spec (List.length_pos_iff.mpr h) s
  refine ⟨k, s.held[k], picks, draws, List.getElem?_eq_getElem hk, ?_⟩
  unfold presentHeld
  rw [hd]
  simp [presentAt, hk]

/-! ### Events -/

theorem tickBlock_cases (s : State) :
    (s.phase = .idle ∨ s.phase = .writing) ∧ tickBlock s = s ∨
    s.phase = .flushing ∧ nextCount s < s.cfgTFlushWindow.toNat ∧ tickBlock s = countTick s ∨
    s.phase = .flushing ∧ s.cfgTFlushWindow.toNat ≤ nextCount s ∧
      tickBlock s = { countTick s with phase := .writing } ∨
    s.phase = .awaiting ∧ nextCount s < s.cfgTTotal.toNat ∧ tickBlock s = countTick s ∨
    s.phase = .awaiting ∧ s.cfgTTotal.toNat ≤ nextCount s ∧
      tickBlock s = raise .noAckTimeout (countTick s) := by
  unfold tickBlock
  cases hp : s.phase with
  | idle => simp
  | writing => simp
  | flushing =>
    by_cases h : nextCount s ≥ s.cfgTFlushWindow.toNat
    · simp [tickFlushing, h, Nat.not_lt.mpr h]
    · simp [tickFlushing, h, Nat.lt_of_not_le h]
  | awaiting =>
    by_cases h : nextCount s ≥ s.cfgTTotal.toNat
    · simp [tickAwaiting, h, Nat.not_lt.mpr h]
    · simp [tickAwaiting, h, Nat.lt_of_not_le h]

theorem receiveChunk_cases (c : Chunk) (s : State) :
    (s.phase = .idle ∨ s.phase = .writing) ∧ receiveChunk c s = { s with upstream := s.upstream ++ [c] } ∨
    s.phase = .flushing ∧ receiveChunk c s = s ∨
    s.phase = .awaiting ∧
      (let rxb := Memory.append s.rxb (chunkBytes c) s.cfgMaxBuf.toNat
       containsAck (Memory.bytes rxb) s.ackp = false ∧ receiveChunk c s = { s with rxb := rxb } ∨
       containsAck (Memory.bytes rxb) s.ackp = true ∧ receiveChunk c s = raise .matched { s with rxb := rxb }) := by
  unfold receiveChunk
  cases hp : s.phase with
  | idle => simp
  | writing => simp
  | flushing => simp
  | awaiting =>
    refine .inr (.inr ⟨rfl, ?_⟩)
    by_cases h : containsAck (Memory.bytes (Memory.append s.rxb (chunkBytes c) s.cfgMaxBuf.toNat)) s.ackp = true
    · exact .inr ⟨h, by simp only [receiveAwaiting]; rw [if_pos h, hp]⟩
    · exact .inl ⟨by simpa using h, by simp only [receiveAwaiting]; rw [if_neg h, hp]⟩

theorem receiveError_cases (s : State) :
    (s.phase = .idle ∨ s.phase = .writing) ∧ receiveError s = s ∨
    (s.phase = .flushing ∨ s.phase = .awaiting) ∧ receiveError s = raise .readError s := by
  unfold receiveError
  cases hp : s.phase <;> simp

theorem transmitError_cases (s : State) :
    s.phase ≠ .writing ∧ transmitError s = s ∨ s.phase = .writing ∧ transmitError s = raise .writeFailed s := by
  unfold transmitError
  cases hp : s.phase <;> simp

theorem endWrite_cases (s : State) :
    0 < s.cfgTTotal.toNat ∧ endWrite s = { s with tmr := 0, phase := .awaiting } ∨
    s.cfgTTotal = 0 ∧ endWrite s = raise .noAckTimeout { s with tmr := 0 } := by
  unfold endWrite
  by_cases h : s.cfgTTotal.toNat > 0
  · exact .inl ⟨h, by rw [if_pos h]⟩
  · refine .inr ⟨BitVec.eq_of_toNat_eq (by simp; omega), by rw [if_neg h]⟩

theorem offeredByte_eq_some {s : State} {b : Byte} :
    offeredByte s = some b ↔ ∃ h : s.txIdx.toNat < 14, b = s.txf[s.txIdx.toNat] := by
  unfold offeredByte
  constructor
  · intro h
    obtain ⟨hi, hb⟩ := List.getElem?_eq_some_iff.mp h
    have hi' : s.txIdx.toNat < 14 := by simpa using hi
    exact ⟨hi', by simpa using hb.symm⟩
  · rintro ⟨h, rfl⟩
    exact List.getElem?_eq_some_iff.mpr ⟨by simpa using h, by simp⟩

/-- A transfer moves the byte at the index; the fourteenth ends the write. Elsewhere there is no transfer. -/
theorem transmitByte_cases (s : State) :
    ¬(s.phase = .writing ∧ s.txIdx.toNat < 14) ∧ transmitByte s = s ∨
    ∃ h : s.txIdx.toNat < 14, s.phase = .writing ∧
      (let taken := { s with sent := s.sent ++ [s.txf[s.txIdx.toNat]], txIdx := s.txIdx + 1 }
       s.txIdx.toNat < 13 ∧ transmitByte s = taken ∨
       s.txIdx = 13 ∧ transmitByte s = endWrite taken) := by
  unfold transmitByte
  by_cases hp : s.phase = .writing
  · cases hb : offeredByte s with
    | none =>
      refine .inl ⟨fun hc => ?_, by simp⟩
      have := offeredByte_eq_some.mpr ⟨hc.2, rfl⟩
      rw [hb] at this
      cases this
    | some b =>
      obtain ⟨h, rfl⟩ := offeredByte_eq_some.mp hb
      refine .inr ⟨h, hp, ?_⟩
      by_cases h13 : s.txIdx.toNat < 13
      · exact .inl ⟨h13, by simp [hp, h13]⟩
      · refine .inr ⟨BitVec.eq_of_toNat_eq (by simp; omega), by simp [hp, h13]⟩
  · refine .inl ⟨fun hc => hp hc.1, ?_⟩
    cases hq : s.phase <;> simp_all

theorem transmitFrame_cases (frame : Frame) (s : State) :
    ¬(s.phase = .writing ∧ s.txIdx = 0 ∧ s.txf = frame) ∧ transmitFrame frame s = s ∨
    s.phase = .writing ∧ s.txIdx = 0 ∧ s.txf = frame ∧
      transmitFrame frame s = endWrite { s with sent := s.sent ++ frame.toList, txIdx := 14 } := by
  unfold transmitFrame
  by_cases h : s.phase = .writing ∧ s.txIdx = 0 ∧ s.txf = frame
  · exact .inr ⟨h.1, h.2.1, h.2.2, by rw [if_pos h]⟩
  · exact .inl ⟨h, by rw [if_neg h]⟩

end Sys2Proof.Machine
end

