-- ==== Sys2Proof/Laws/Step.lean ====
section
/-! SUPPORT. What one step can do, said once: invariants and whole-machine rules cite `step_cases` and `runInput_cases` in place of
unfolding the choice of the mover. -/

namespace Sys2Proof.Machine

open Sys2Proof

/-! ### Taking an input -/

section Inputs
variable {s : State}

theorem runInput_nil (h : s.inputs = []) : runInput s = .next s := by
  simp [runInput, h]

theorem runInput_rst {rest : List Input} (h : s.inputs = .rst :: rest) :
    runInput s = .next (settle (resetBlock { s with inputs := rest })) := by
  simp [runInput, h]

theorem runInput_signal {port : Port} {bytes : List Byte} {rest : List Input} {i : Instr}
    (h : s.inputs = .signal port bytes :: rest) (hd : decode port bytes = .ok i) :
    runInput s = settleOutcome (exec i { s with inputs := rest }) := by
  simp [runInput, h, runSignal, hd]

theorem runInput_error {port : Port} {bytes : List Byte} {rest : List Input} {e : DecodeError}
    (h : s.inputs = .signal port bytes :: rest) (hd : decode port bytes = .error e) :
    runInput s = .fault (.noSuchSignal e) := by
  simp [runInput, h, runSignal, hd]

theorem runInput_call {c : CollaboratorCall} {rest : List Input} (h : s.inputs = .call c :: rest) :
    runInput s = settleOutcome (exec (callInstr c) { s with inputs := rest }) := by
  simp [runInput, h]

/-- Taking an input does nothing, resets, runs one instruction, or stops on bits that no port can carry. -/
theorem runInput_cases (s : State) :
    (s.inputs = [] ∧ runInput s = .next s) ∨
    (∃ rest, s.inputs = .rst :: rest ∧ runInput s = .next (settle (resetBlock { s with inputs := rest }))) ∨
    (∃ head rest i, s.inputs = head :: rest ∧ head ≠ .rst ∧
      runInput s = settleOutcome (exec i { s with inputs := rest })) ∨
    (∃ port bytes rest e, s.inputs = .signal port bytes :: rest ∧ decode port bytes = .error e ∧
      runInput s = .fault (.noSuchSignal e)) := by
  cases h : s.inputs with
  | nil => exact .inl ⟨rfl, runInput_nil h⟩
  | cons head rest =>
    cases head with
    | rst => exact .inr (.inl ⟨rest, rfl, runInput_rst h⟩)
    | call c => exact .inr (.inr (.inl ⟨_, rest, callInstr c, rfl, by simp, runInput_call h⟩))
    | signal port bytes =>
      cases hd : decode port bytes with
      | ok i => exact .inr (.inr (.inl ⟨_, rest, i, rfl, by simp, runInput_signal h hd⟩))
      | error e => exact .inr (.inr (.inr ⟨port, bytes, rest, e, rfl, hd, runInput_error h hd⟩))

end Inputs

/-! ### The arbiter -/

/-- With something to choose and a choice listed, the arbiter takes it. -/
theorem drawArbiter_listed {n k : Nat} {picks : List Nat} {s : State} (hn : 1 < n) (hk : k < n)
    (h : s.arbiterPicks = k :: picks) : drawArbiter n s = (k, { s with arbiterPicks := picks }) := by
  simp [drawArbiter, Nat.not_le.mpr hn, h, Nat.mod_eq_of_lt hk]

theorem presentAt_of_get {k : Nat} {r : Request} {s : State} (h : s.held[k]? = some r) :
    presentAt k s = acceptRequest r { s with held := s.held.eraseIdx k } := by
  simp [presentAt, h]

/-- Under contention a waiting request is accepted, or the arriving one is taken. -/
theorem contend_cases (s : State) :
    ∃ picks draws,
      (∃ k r, s.held[k]? = some r ∧
        contend s = .next (settle (acceptRequest r
          { s with held := s.held.eraseIdx k, arbiterPicks := picks, draws := draws }))) ∨
      contend s = runInput { s with arbiterPicks := picks, draws := draws } := by
  obtain ⟨k, picks, draws, -, hd⟩ := drawArbiter_spec (Nat.succ_pos s.held.length) s
  refine ⟨picks, draws, ?_⟩
  simp only [contend, hd]
  by_cases hk : k < s.held.length
  · refine .inl ⟨k, s.held[k], List.getElem?_eq_getElem hk, ?_⟩
    rw [if_pos hk]
    rw [presentAt_of_get (s := { s with arbiterPicks := picks, draws := draws }) (List.getElem?_eq_getElem hk)]
  · exact .inr (by rw [if_neg hk])

/-! ### Which mover goes -/

theorem nextMove_rst {s : State} {rest : List Input} (h : s.inputs = .rst :: rest) : nextMove s = .input := by
  simp [nextMove, h]

theorem nextMove_of_not_rst {s : State} (h : ∀ rest, s.inputs ≠ .rst :: rest) :
    nextMove s =
      match s.phase, s.held, s.upstream with
      | .idle, _ :: _, _ => if requestArrives s.inputs then .contend else .present
      | .flushing, _, c :: upstream => .deliver c upstream
      | .awaiting, _, c :: upstream => .deliver c upstream
      | _, _, _ => .input := by
  unfold nextMove
  split
  · rename_i rest hr; exact absurd hr (h rest)
  · rfl

theorem nextMove_waiting {s : State} (hp : s.phase = .idle) (hh : s.held ≠ []) (hr : ∀ rest, s.inputs ≠ .rst :: rest) :
    nextMove s = if requestArrives s.inputs then .contend else .present := by
  rw [nextMove_of_not_rst hr]
  cases h : s.held with
  | nil => exact absurd h hh
  | cons r rest => simp [hp]

/-- A step accepts a waiting request in `IDLE`, delivers a waiting chunk to a block that reads, or takes the environment's next input. -/
theorem step_cases (s : State) :
    (∃ k r picks draws, s.phase = .idle ∧ s.held[k]? = some r ∧
      step s = .next (settle (acceptRequest r
        { s with held := s.held.eraseIdx k, arbiterPicks := picks, draws := draws }))) ∨
    (∃ c upstream, (s.phase = .flushing ∨ s.phase = .awaiting) ∧ s.upstream = c :: upstream ∧
      step s = settleOutcome (exec (.rxChunk c) { s with upstream := upstream })) ∨
    (∃ picks draws, step s = runInput { s with arbiterPicks := picks, draws := draws }) := by
  have input (h : nextMove s = .input) : ∃ picks draws, step s = runInput { s with arbiterPicks := picks, draws := draws } :=
    ⟨s.arbiterPicks, s.draws, by simp only [step, h, runMove]⟩
  by_cases hr : ∃ rest, s.inputs = .rst :: rest
  · obtain ⟨rest, hr⟩ := hr
    exact .inr (.inr (input (nextMove_rst hr)))
  · have hr : ∀ rest, s.inputs ≠ .rst :: rest := fun rest h => hr ⟨rest, h⟩
    have hm := nextMove_of_not_rst hr
    split at hm
    · rename_i r rest hp hh
      have hne : s.held ≠ [] := by simp [hh]
      split at hm
      · obtain ⟨picks, draws, ⟨k, q, hk, he⟩ | he⟩ := contend_cases s
        · exact .inl ⟨k, q, picks, draws, hp, hk, by simp only [step, hm, runMove, he]⟩
        · exact .inr (.inr ⟨picks, draws, by simp only [step, hm, runMove, he]⟩)
      · obtain ⟨k, q, picks, draws, hk, he⟩ := presentHeld_spec hne
        exact .inl ⟨k, q, picks, draws, hp, hk, by simp only [step, hm, runMove, he]⟩
    · rename_i c upstream hp hu
      exact .inr (.inl ⟨c, upstream, .inl hp, hu, by simp only [step, hm, runMove]⟩)
    · rename_i c upstream hp hu
      exact .inr (.inl ⟨c, upstream, .inr hp, hu, by simp only [step, hm, runMove]⟩)
    · exact .inr (.inr (input hm))

end Sys2Proof.Machine
end

