-- ==== Sys2Proof/Tests/Slice0.lean ====
section
/-! SUPPORT. The model's own tests, with expected values from spec/95_test_vectors.md (its vectors V<n>, programs P<n> and scenarios S<n>) and
from the encodings of spec/30_encoding.md; and, for every obligation that has hypotheses, a named witness that meets them. -/

namespace Sys2Proof.Tests

open Sys2Proof Sys2Proof.Machine

/-! ### Small states -/

/-- The state a step leaves, if it goes on. -/
def nextOf (o : Host.Outcome State Fault Refusal) : Option State :=
  match o with
  | .next s => some s
  | .fault _ => none
  | .refused _ => none

/-- The tuple of spec/95_test_vectors.md, section 2.8. -/
structure Shown where
  phase : Phase
  txIdx : BitVec 4
  tmr : Half
  result : Result
  linkOpen : Bool
  rxb : List Byte
  deriving DecidableEq, Repr

def shown (s : State) : Shown := ⟨s.phase, s.txIdx, s.tmr, s.result, s.linkOpen, Memory.bytes s.rxb⟩

/-- What `shown` gives after an instruction. -/
def after (i : Instr) (s : State) : Option Shown :=
  (nextOf (exec i s)).map shown

/-- Idle, the link open, the request of V10 latched. -/
def open5 : State :=
  { State.reset with txf := encodeSet 5 .ch2 200 3, ackp := expectedAck 5, linkOpen := true }

def flushing (t : Half) : State := { open5 with phase := .flushing, tmr := t }
def writing (k : BitVec 4) : State := { open5 with phase := .writing, txIdx := k, tmr := 80 }
def awaiting (t : Half) (bs : List Byte) : State :=
  { open5 with phase := .awaiting, txIdx := 14, tmr := t, rxb := Memory.ofBytes bs }

/-- A call of the reference host on address 5, channel 2. -/
def call (left : Nat) : SetCall := { address := 5, channel := 2, level := 200, fade := 3, left := left }

/-- Between two attempts of a call a `CONNECT` of another requester arrives; the arbiter's next choice is given. -/
def contended (pick : Nat) : State :=
  { open5 with held := [.attempt (call 2)], inputs := [signalOf .connect], arbiterPicks := [pick] }

/-- The instruction a word of the opcode table is. -/
def decodesTo (nbits w : Nat) (i : Instr) : Bool := decodeTableWord nbits w == some i

/-! ### Decoding: words written out from the spec's encodings -/

/-- V10, S2: format `REQ` of spec/30_encoding.md R60. -/
theorem test_decode_set_levels :
    decodesTo 112 0xFFFE05570105C8030105010539FF (.setLevels 5 1 5 200 3 1 5 1 5 0x39) = true ∧
    decodeTableWord 112 0xFFFE05570105C80301050105B9FF = none := by decide

/-- Format `ACK` of spec/30_encoding.md R61. -/
theorem test_decode_ack :
    decodesTo 32 0xFE0506FF (.ack 5) = true ∧ decodeTableWord 32 0xFE0507FF = none := by decide

/-- `op = 00`, the 43 bits below ignored (spec/30_encoding.md R71); P2. -/
theorem test_decode_connect :
    decodesTo 48 0b000000000000000000000000000000000000000000000 .connect = true ∧
    decodesTo 48 0b001111111111111111111111111111111111111111111 .connect = true := by decide

/-- `op = 01`, 24 ignored bits, register, value (spec/30_encoding.md R71); P3. -/
theorem test_decode_cfgwr :
    decodesTo 48 0b010000000000000000000000001000000000000001000 (.cfgwr 4 8) = true ∧
    decodesTo 48 0b011111111111111111111111110100000000000000000 (.cfgwr 2 0) = true := by decide

/-- `op = 10`, address, channel, level, fade (spec/30_encoding.md R71); P1, P7. -/
theorem test_decode_transact :
    decodesTo 48 0b100000010101000000000110010000000000000000011 (.transact 5 2 200 3) = true ∧
    decodesTo 48 0x17F400FE00FE (.transact 254 4 254 254) = true := by decide

/-- `op = 11` (spec/30_encoding.md R71); a bit above bit 44 is no word of the port. -/
theorem test_decode_cmd_reserved :
    decodesTo 48 0b110000000000000000000000000000000000000000000 .cmdReserved = true ∧
    decodeTableWord 48 0x200000000000 = none := by decide

/-- The event codes of spec/30_encoding.md R72. -/
theorem test_decode_events :
    decodesTo 8 0b000 .tick = true ∧ decodesTo 8 0b001 (.rxChunk { first := 0, rest := [] }) = true ∧
    decodesTo 8 0b010 .rxErr = true ∧ decodesTo 8 0b011 .txAccept = true ∧ decodesTo 8 0b100 .txErr = true ∧
    decodeTableWord 8 0b101 = none ∧ decodeTableWord 8 0b110 = none ∧ decodeTableWord 8 0b111 = none := by decide

/-- `RX 00 00 FE 05`, four bytes of a chunk after the code. -/
theorem test_decode_rx_chunk :
    (decode .event [1, 0x00, 0x00, 0xFE, 0x05]).toOption = some (.rxChunk { first := 0x00, rest := [0x00, 0xFE, 0x05] }) ∧
    (decode .event [1]).toOption = none := by decide

/-- The words of P6: a call of `set` and of `turn_off` on address 5, channel 2. -/
theorem test_decode_host_calls :
    (decode .setCall (bytesOf 6 0x102A00C80003)).toOption = some (.set 5 2 200 3) ∧
    (decode .turnOffCall (bytesOf 6 0x102A00000003)).toOption = some (.turnOff 5 2 3) ∧
    (decode .turnOffCall (bytesOf 6 0x102A00C80003)).toOption = none := by decide

/-- The encoder gives the words of P1, P3 and V10. -/
theorem test_encode_words :
    encode (.transact 5 2 200 3) = [0x10, 0x2A, 0x00, 0xC8, 0x00, 0x03] ∧
    encode (.cfgwr 4 8) = [0x08, 0x00, 0x00, 0x04, 0x00, 0x08] ∧
    encode .cmdReserved = [0x18, 0, 0, 0, 0, 0] ∧
    encode (.setLevels 5 1 5 200 3 1 5 1 5 0x39) = (encodeSet 5 .ch2 200 3).toList := by decide

/-! ### Well-formedness -/

theorem test_wellformed_accepts :
    (Instr.setLevels 5 1 5 200 3 1 5 1 5 0x39).wellFormed = true ∧ (Instr.set 247 4 255 0).wellFormed = true ∧
    (Instr.turnOff 1 1 255).wellFormed = true ∧ (Instr.transact 0 7 0x8000 0x7FFF).wellFormed = true := by decide

/-- One ill-formed term for each check: the checksum, the filler pairs. -/
theorem test_wellformed_refuses_frames :
    (Instr.setLevels 5 1 5 200 3 1 5 1 5 0x3A).wellFormed = false ∧
    (Instr.setLevels 5 1 5 200 3 2 5 1 5 0x3A).wellFormed = false := by decide

/-- One ill-formed term for each check: the address, the channel, the level, the fade of `SET`. -/
theorem test_wellformed_refuses_set :
    (Instr.set 0 2 200 3).wellFormed = false ∧ (Instr.set 248 2 200 3).wellFormed = false ∧
    (Instr.set 5 0 200 3).wellFormed = false ∧ (Instr.set 5 5 200 3).wellFormed = false ∧
    (Instr.set 5 2 256 3).wellFormed = false ∧ (Instr.set 5 2 200 0xFFFF).wellFormed = false := by decide

/-- One ill-formed term for each check: the address, the channel, the fade of `TURN_OFF`. -/
theorem test_wellformed_refuses_turn_off :
    (Instr.turnOff 0 2 3).wellFormed = false ∧ (Instr.turnOff 5 7 3).wellFormed = false ∧
    (Instr.turnOff 5 2 256).wellFormed = false := by decide

/-! ### The pure families -/

/-- V1 to V4, V7 to V9. -/
theorem test_checksum :
    checksum 0x05 0x57 #v[1, 5, 0xC8, 3, 1, 5, 1, 5] = 0x39 ∧ checksum 0 0 #v[0, 0, 0, 0, 0, 0, 0, 0] = 0 ∧
    checksum 0xFF 0xFF #v[255, 255, 255, 255, 255, 255, 255, 255] = 0x76 ∧
    checksum 0x01 0x57 #v[0x64, 5, 1, 5, 1, 5, 1, 5] = 0x53 ∧
    checksum 0x05 0x57 #v[1, 5, 1, 5, 0xFF, 0, 1, 5] = 0x6D ∧ checksum 0x05 0x57 #v[1, 5, 1, 5, 0x7F, 0, 1, 5] = 0x6D ∧
    checksum 0x29 0x57 #v[0, 0, 0, 0, 0, 0, 0, 0] = 0 := by decide

/-- Section 2.2. -/
theorem test_clamp :
    clamp (-32768) = 0 ∧ clamp (-1) = 0 ∧ clamp 0 = 0 ∧ clamp 1 = 1 ∧ clamp 128 = 128 ∧ clamp 255 = 255 ∧
    clamp 256 = 255 ∧ clamp 32767 = 255 := by decide

/-- V14, V15, V20, V23, V25. -/
theorem test_encode_set :
    (encodeSet 247 .ch4 255 255).toList = [0xFF, 0xFE, 0xF7, 0x57, 1, 5, 1, 5, 1, 5, 0xFF, 0xFF, 0x5E, 0xFF] ∧
    (encodeSet 1 .ch3 300 (-7)).toList = [0xFF, 0xFE, 0x01, 0x57, 1, 5, 1, 5, 0xFF, 0x00, 1, 5, 0x69, 0xFF] ∧
    operandFrame 5 2 0x8000 0x7FFF =
      some #v[0xFF, 0xFE, 0x05, 0x57, 1, 5, 0x00, 0xFF, 1, 5, 1, 5, 0x6D, 0xFF] ∧
    (encodeSet 0 .ch1 1 5).toList = [0xFF, 0xFE, 0x00, 0x57, 1, 5, 1, 5, 1, 5, 1, 5, 0x6F, 0xFF] ∧
    (encodeSet 254 .ch4 254 254).toList = [0xFF, 0xFE, 0xFE, 0x57, 1, 5, 1, 5, 1, 5, 0xFE, 0xFE, 0x63, 0xFF] ∧
    operandFrame 5 0 1 1 = none ∧ operandFrame 5 5 1 1 = none ∧ operandFrame 5 7 1 1 = none := by decide

/-- After V27: `DECODE_SET` on V10, on V10 with byte 12 changed, on its first 12 bytes. -/
theorem test_decode_set :
    (decodeSet (encodeSet 5 .ch2 200 3).toList).map (·.pairs) = some [(1, 5), (200, 3), (1, 5), (1, 5)] ∧
    decodeSet [0xFF, 0xFE, 5, 0x57, 1, 5, 200, 3, 1, 5, 1, 5, 0x3A, 0xFF] = none ∧
    decodeSet [0xFF, 0xFE, 5, 0x57, 1, 5, 200, 3, 1, 5, 1, 5] = none := by decide

/-- V30 to V45 (a choice). -/
theorem test_contains_ack :
    containsAck [] (expectedAck 5) = false ∧ containsAck [0xFE, 5, 6] (expectedAck 5) = false ∧
    containsAck [0, 0, 0xFE, 5, 6, 0xFF, 0] (expectedAck 5) = true ∧
    containsAck [0xFE, 5, 0, 6, 0xFF] (expectedAck 5) = false ∧ containsAck [0xFE, 6, 6, 0xFF] (expectedAck 5) = false ∧
    containsAck [0xFE, 0xFE, 5, 6, 0xFF] (expectedAck 5) = true ∧
    containsAck [0xFE, 5, 0xFE, 5, 6, 0xFF] (expectedAck 5) = true ∧
    containsAck [6, 0xFF, 0xFE, 5] (expectedAck 5) = false ∧
    containsAck [0xFE, 0xFE, 0xFE, 6, 0xFF] (expectedAck 0xFE) = true := by decide

/-- V50 to V53, V57 to V60. -/
theorem test_rx_append :
    keepLast [0x11, 0x22, 0x33, 0x44, 0x55] 3 = [0x33, 0x44, 0x55] ∧ keepLast [0x11, 0x22, 0x33] 3 = [0x11, 0x22, 0x33] ∧
    keepLast [0x11, 0x22, 0x33] 0 = [] ∧ keepLast [] 8 = [] ∧
    rxAppend [0x14, 0x15, 0x16, 0x17, 0x18, 0x19, 0xFE, 1] [6, 0xFF, 0xAA, 0xBB] 8 (expectedAck 1) =
      ([0x18, 0x19, 0xFE, 1, 6, 0xFF, 0xAA, 0xBB], true) ∧
    rxAppend [] [0xFE, 1, 6, 0xFF, 1, 2, 3, 4] 8 (expectedAck 1) = ([0xFE, 1, 6, 0xFF, 1, 2, 3, 4], true) ∧
    rxAppend [] [0xFE, 1, 6, 0xFF, 1, 2, 3, 4, 5] 8 (expectedAck 1) = ([1, 6, 0xFF, 1, 2, 3, 4, 5], false) ∧
    rxAppend [0xFE, 1, 6] [0xFF] 4 (expectedAck 1) = ([0xFE, 1, 6, 0xFF], true) := by decide

/-- Section 2.6. -/
theorem test_streaming_forms :
    windowAfter [0, 0xFE, 0xFE, 5, 0xFE, 5, 6] = [5, 0xFE, 5, 6] ∧
    windowHit (windowAfter [0, 0xFE, 0xFE, 5, 0xFE, 5, 6, 0xFF]) (expectedAck 5) = true ∧
    automatonAfter (expectedAck 5) [0, 0xFE, 0xFE, 5, 0xFE] = 1 ∧
    automatonAfter (expectedAck 5) [0, 0xFE, 0xFE, 5, 0xFE, 5, 6, 0xFF] = 4 ∧
    automatonAfter (expectedAck 0xFE) [0xFE, 0xFE, 0xFE] = 2 ∧
    automatonAfter (expectedAck 0xFE) [0xFE, 0xFE, 0xFE, 6, 0xFF] = 4 := by decide

/-- Section 2.7. -/
theorem test_norm_fade :
    normFade (.seconds 37 10) = 3 ∧ normFade (.seconds 99 100) = 0 ∧ normFade (.seconds (-1) 2) = 0 ∧
    normFade (.seconds (-16) 5) = 0 ∧ normFade (.seconds 2559 10) = 255 ∧ normFade (.seconds 256 1) = 255 ∧
    normFade .missing = 5 := by decide

/-! ### One step of each instruction -/

/-- V70, V71. -/
theorem test_connect :
    after .connect { open5 with linkOpen := false, openAnswers := [true] } = some ⟨.idle, 0, 0, .none, true, []⟩ ∧
    after .connect { open5 with linkOpen := false, openAnswers := [false] } =
      some ⟨.idle, 0, 0, .linkUnavailable, false, []⟩ := by decide

/-- V72. -/
theorem test_connect_open :
    after .connect { open5 with result := .noAckTimeout } = some ⟨.idle, 0, 0, .none, true, []⟩ := by decide

/-- V73 to V77. -/
theorem test_cfgwr :
    (nextOf (exec (.cfgwr 4 8) open5)).map (fun s => (s.cfgMaxBuf, s.result)) = some (8, .none) ∧
    (nextOf (exec (.cfgwr 4 3) open5)).map (fun s => (s.cfgMaxBuf, s.result)) = some (4096, .badCommand) ∧
    (nextOf (exec (.cfgwr 4 4097) open5)).map (fun s => (s.cfgMaxBuf, s.result)) = some (4096, .badCommand) ∧
    (nextOf (exec (.cfgwr 4 4) open5)).map (fun s => (s.cfgMaxBuf, s.result)) = some (4, .none) ∧
    after (.cfgwr 5 1) open5 = some ⟨.idle, 0, 0, .badCommand, true, []⟩ := by decide

/-- P8, step 4: a zero time-out is accepted. -/
theorem test_cfgwr_zero :
    (nextOf (exec (.cfgwr 0 0) open5)).map (fun s => (s.cfgTTotal, s.cfgTChunk, s.result)) = some (0, 120, .none) := by decide

/-- V78. -/
theorem test_cmd_reserved : after .cmdReserved open5 = some ⟨.idle, 0, 0, .badCommand, true, []⟩ := by decide

/-- V81 and V79. -/
theorem test_transact :
    (nextOf (exec (.transact 10 4 128 0) { open5 with linkOpen := false, openAnswers := [true] })).map
        (fun s => (shown s, s.txf, s.ackp)) =
      some (⟨.flushing, 0, 0, .none, true, []⟩,
        #v[0xFF, 0xFE, 0x0A, 0x57, 1, 5, 1, 5, 1, 5, 0x80, 0, 0x73, 0xFF], #v[0xFE, 0x0A, 6, 0xFF]) ∧
    after (.transact 5 0 1 1) { open5 with linkOpen := false, openAnswers := [true] } =
      some ⟨.idle, 0, 0, .badChannel, false, []⟩ := by decide

/-- V82, V103. -/
theorem test_transact_corners :
    after (.transact 1 1 100 5) { open5 with cfgTFlushWindow := 0 } = some ⟨.writing, 0, 0, .none, true, []⟩ ∧
    after (.transact 5 7 0 0) { awaiting 800 [1] with phase := .idle, result := .noAckTimeout } =
      some ⟨.idle, 14, 800, .badChannel, true, [1]⟩ := by decide

/-- V85, V86, V93. -/
theorem test_tick :
    after .tick (flushing 78) = some ⟨.flushing, 0, 79, .none, true, []⟩ ∧
    after .tick (flushing 79) = some ⟨.writing, 0, 80, .none, true, []⟩ ∧
    after .tick (writing 5) = some ⟨.writing, 5, 80, .none, true, []⟩ := by decide

/-- V98, V99. -/
theorem test_tick_deadline :
    after .tick (awaiting 798 [7]) = some ⟨.awaiting, 14, 799, .none, true, [7]⟩ ∧
    after .tick (awaiting 799 [7]) = some ⟨.idle, 14, 800, .noAckTimeout, true, [7]⟩ := by decide

/-- V96, V83. -/
theorem test_rx_chunk :
    after (.rxChunk { first := 6, rest := [0xFF, 0] }) (awaiting 24 [0, 0, 0xFE, 5]) =
      some ⟨.idle, 14, 24, .matched, true, [0, 0, 0xFE, 5, 6, 0xFF, 0]⟩ ∧
    after (.rxChunk { first := 0xFE, rest := [5, 6, 0xFF] }) (flushing 12) = some ⟨.flushing, 0, 12, .none, true, []⟩ := by
  decide

/-- P3, step 7, and V94. -/
theorem test_rx_chunk_bounds :
    after (.rxChunk { first := 0x16, rest := [0x17, 0x18, 0x19] })
        { awaiting 0 [0x10, 0x11, 0x12, 0x13, 0x14, 0x15] with cfgMaxBuf := 8 } =
      some ⟨.awaiting, 14, 0, .none, true, [0x12, 0x13, 0x14, 0x15, 0x16, 0x17, 0x18, 0x19]⟩ ∧
    (nextOf (exec (.rxChunk { first := 0xAA, rest := [] }) (writing 3))).map (fun s => (shown s, s.upstream)) =
      some (⟨.writing, 3, 80, .none, true, []⟩, [{ first := 0xAA, rest := [] }]) := by decide

/-- V84, V97. -/
theorem test_rx_err :
    after .rxErr (flushing 30) = some ⟨.idle, 0, 30, .readError, true, []⟩ ∧
    after .rxErr (awaiting 10 [0, 0xFE]) = some ⟨.idle, 14, 10, .readError, true, [0, 0xFE]⟩ := by decide

/-- V88, V89. -/
theorem test_tx_accept :
    (nextOf (exec .txAccept (writing 2))).map (fun s => (shown s, s.sent)) =
      some (⟨.writing, 3, 80, .none, true, []⟩, [0x05]) ∧
    (nextOf (exec .txAccept (writing 13))).map (fun s => (shown s, s.sent)) =
      some (⟨.awaiting, 14, 0, .none, true, []⟩, [0xFF]) := by decide

/-- V90, V100. -/
theorem test_tx_accept_corners :
    after .txAccept { writing 13 with cfgTTotal := 0 } = some ⟨.idle, 14, 0, .noAckTimeout, true, []⟩ ∧
    after .txAccept (awaiting 0 []) = some ⟨.awaiting, 14, 0, .none, true, []⟩ := by decide

/-- V91, V92. -/
theorem test_tx_err :
    after .txErr (writing 3) = some ⟨.idle, 3, 80, .writeFailed, true, []⟩ ∧
    after .txErr (writing 0) = some ⟨.idle, 0, 80, .writeFailed, true, []⟩ := by decide

/-- P1, steps 6 and 7 as one step; another frame is not the one offered. -/
theorem test_set_levels :
    (nextOf (exec (.setLevels 5 1 5 200 3 1 5 1 5 0x39) (writing 0))).map (fun s => (shown s, s.sent)) =
      some (⟨.awaiting, 14, 0, .none, true, []⟩, [0xFF, 0xFE, 5, 0x57, 1, 5, 0xC8, 3, 1, 5, 1, 5, 0x39, 0xFF]) ∧
    after (.setLevels 5 1 5 201 3 1 5 1 5 0x3A) (writing 0) = some ⟨.writing, 0, 80, .none, true, []⟩ := by decide

/-- P6, step 5 (the acknowledgement), and P2, step 4 (another module's). -/
theorem test_ack :
    after (.ack 5) (awaiting 5 []) = some ⟨.idle, 14, 5, .matched, true, [0xFE, 5, 6, 0xFF]⟩ ∧
    after (.ack 6) (awaiting 100 []) = some ⟨.awaiting, 14, 100, .none, true, [0xFE, 6, 6, 0xFF]⟩ := by decide

/-- P6, step 1 and step 8: the word the call puts on the port. -/
theorem test_set :
    (nextOf (exec (.set 5 2 200 3) open5)).map (fun s => (shown s, s.txf, s.running)) =
      some (⟨.flushing, 0, 0, .none, true, []⟩, encodeSet 5 .ch2 200 3, some (call 3)) := by decide

/-- A call with 3.7 seconds (R171's worked example) sends the frame of V10, whose fade is 3. -/
theorem test_collaborator_call :
    (nextOf (step { open5 with
        inputs := [.call { address := 5, channel := 2, level := 200, time := .seconds 37 10 }] })).map
        (fun s => (shown s, s.txf, s.running)) =
      some (⟨.flushing, 0, 0, .none, true, []⟩, encodeSet 5 .ch2 200 3, some (call 3)) := by decide

theorem test_turn_off :
    (nextOf (exec (.turnOff 5 2 3) open5)).map (fun s => (shown s, s.txf)) =
      some (⟨.flushing, 0, 0, .none, true, []⟩,
        #v[0xFF, 0xFE, 5, 0x57, 1, 5, 0, 3, 1, 5, 1, 5, 0x71, 0xFF]) := by decide

/-- P6, steps 6 and 3: success caches the level; a failed attempt is followed by the next. -/
theorem test_host_result :
    currentState 5 2 (settle { open5 with result := .matched, running := some (call 3) }) =
      { isOn := true, brightness := 200 } ∧
    (settle { open5 with result := .noAckTimeout, running := some (call 3) }).held = [.attempt (call 2)] ∧
    (settle { open5 with
      result := .noAckTimeout, running := some (call 1), cache := [(42, { isOn := true, brightness := 120 })] }).returned =
      [.commandFailed 5 2 true] := by decide

/-- V102, then the waiting command is accepted in `IDLE`. -/
theorem test_command_waits :
    (nextOf (exec .connect (writing 3))).map (fun s => (shown s, s.held)) =
      some (⟨.writing, 3, 80, .none, true, []⟩, [.command .connect]) ∧
    (nextOf (step { open5 with held := [.command .reserved] })).map (fun s => (s.result, s.held)) =
      some (.badCommand, []) := by decide

/-- R172, R208: between two attempts of a call another requester's command may come in, or not. -/
theorem test_contention :
    (nextOf (step (contended 1))).map (fun s => (shown s, s.held, s.inputs)) =
      some (⟨.idle, 0, 0, .none, true, []⟩, [.attempt (call 2)], []) ∧
    (nextOf (step (contended 0))).map (fun s => (shown s, s.held, s.inputs)) =
      some (⟨.flushing, 0, 0, .none, true, []⟩, [], [signalOf .connect]) := by decide

/-- V110, V111. -/
theorem test_reset :
    (nextOf (step { writing 6 with inputs := [.rst], sent := [0xFF, 0xFE, 5, 0x57, 1, 5] })).map
        (fun s => (shown s, s.sent)) =
      some (⟨.idle, 0, 0, .none, false, []⟩, [0xFF, 0xFE, 5, 0x57, 1, 5]) ∧
    (nextOf (step { awaiting 300 [0, 0xFE, 5] with inputs := [.rst], cfgMaxBuf := 8 })).map
        (fun s => (shown s, s.cfgMaxBuf, s.cfgTTotal)) =
      some (⟨.idle, 0, 0, .none, false, []⟩, 4096, 800) := by decide

/-- R199: a chunk before a receiver error before a tick. -/
theorem test_serialise :
    serialise [.tick, .rxErr, .rxChunk { first := 1, rest := [] }] = [.rxChunk { first := 1, rest := [] }, .rxErr, .tick] ∧
    serialise [.txAccept, .txErr] = [.txErr, .txAccept] := by decide

/-- Reset codes and flags (R13, R16, R17, R27). -/
theorem test_status :
    (status open5).phase = 0 ∧ (status (awaiting 3 [1, 2])).rxbLen = 2 ∧ (status (writing 4)).busy = true ∧
    resultCode .badCommand = 7 ∧ readConfig 4 open5 = some 4096 ∧ readConfig 5 open5 = none ∧
    memRead 1 2 (awaiting 3 [1, 2, 3]) = some [2, 3] ∧ memRead 2 2 (awaiting 3 [1, 2, 3]) = none := by decide

/-- A placed word is fetched and run by the next step. -/
theorem test_fetch :
    (nextOf (step ((flushing 78).withFetchWord 8 0))).map shown = some ⟨.flushing, 0, 79, .none, true, []⟩ ∧
    (nextOf (step (open5.withFetchWord 48 0x180000000000))).map shown = some ⟨.idle, 0, 0, .badCommand, true, []⟩ := by
  decide

/-! ### Witnesses: concrete states and operands that meet the hypotheses of the obligations -/

/-- The invariant holds of idle states after `open5` that hold a legal result. -/
theorem open5_inv : MachineInvariant open5 :=
  ⟨⟨by decide, by decide, by decide, by decide, by decide⟩, fun h => absurd rfl h,
    ⟨fun h => (by cases h), fun h => (by cases h), fun h => (by cases h)⟩,
    ⟨fun h => (by cases h), fun h => (by cases h), fun h => (by cases h), fun h => (by cases h), fun h => (by cases h)⟩,
    ⟨fun c h => (by cases h), fun c h => (by cases h)⟩⟩

theorem flushing_inv : MachineInvariant (flushing 79) :=
  ⟨⟨by decide, by decide, by decide, by decide, by decide⟩,
    fun _ => ⟨rfl, rfl, ⟨5, .ch2, 200, 3, rfl, rfl⟩, by decide⟩,
    ⟨fun _ => by decide, fun h => (by cases h), fun h => (by cases h)⟩,
    ⟨fun h => (by cases h), fun h => (by cases h), fun h => (by cases h), fun h => (by cases h), fun h => (by cases h)⟩,
    ⟨fun c h => (by cases h), fun c h => (by cases h)⟩⟩

theorem writing_inv : MachineInvariant (writing 13) :=
  ⟨⟨by decide, by decide, by decide, by decide, by decide⟩,
    fun _ => ⟨rfl, rfl, ⟨5, .ch2, 200, 3, rfl, rfl⟩, by decide⟩,
    ⟨fun h => (by cases h), fun _ => by decide, fun h => (by cases h)⟩,
    ⟨fun h => (by cases h), fun h => (by cases h), fun h => (by cases h), fun h => (by cases h), fun h => (by cases h)⟩,
    ⟨fun c h => (by cases h), fun c h => (by cases h)⟩⟩

theorem awaiting_inv : MachineInvariant (awaiting 799 [0, 0xFE, 5]) :=
  ⟨⟨by decide, by decide, by decide, by decide, by decide⟩,
    fun _ => ⟨rfl, rfl, ⟨5, .ch2, 200, 3, rfl, rfl⟩, by decide⟩,
    ⟨fun h => (by cases h), fun h => (by cases h), fun _ => by decide⟩,
    ⟨fun h => (by cases h), fun h => (by cases h), fun h => (by cases h), fun h => (by cases h), fun h => (by cases h)⟩,
    ⟨fun c h => (by cases h), fun c h => (by cases h)⟩⟩

theorem witness_CommandAndEventWords : 5 ≤ (5 : Byte).toNat ∧ 5 ≤ (255 : Byte).toNat := by decide

theorem witness_EncodeSetLaws : Channel.ch1 ≠ Channel.ch4 := by decide

theorem witness_ContainsAckAndKeepLast :
    ([1, 2, 3] : List Byte).length ≤ 3 ∧ 2 < ([1, 2, 3] : List Byte).length ∧
    containsAck [0xFE, 5, 6, 0xFF] (expectedAck 5) = true := by decide

theorem witness_TruncationAgainstMatching : 3 < 4 ∧ ([1, 2, 3, 4] : List Byte).length + 4 ≤ 8 := by decide

theorem witness_WindowFormEqualsSearch :
    4 ≤ 4 ∧ ∀ k ≤ ([0, 0xFE, 5, 6] : List Byte).length,
      containsAck (bufferAfter 4 (([0, 0xFE, 5, 6] : List Byte).take k)) (expectedAck 5) = false := by decide

theorem witness_ConnectOpensLink :
    open5.phase = .idle ∧ open5.linkOpen = true ∧
    ({ open5 with linkOpen := false, openAnswers := [true] } : State).openAnswers = true :: [] ∧
    ({ open5 with linkOpen := false, openAnswers := [false] } : State).openAnswers = false :: [] ∧
    ({ open5 with linkOpen := false } : State).openAnswers = [] ∧ ({ open5 with linkOpen := false } : State).phase = .idle := by
  decide

theorem witness_CfgwrWritesRegister :
    open5.phase = .idle ∧ (4 ≤ (4 : Half).toNat ∧ (4 : Half).toNat ≤ 4096) ∧
    (4 ≤ (4096 : Half).toNat ∧ (4096 : Half).toNat ≤ 4096) ∧ (3 : Half).toNat < 4 ∧ 4096 < (4097 : Half).toNat ∧
    5 ≤ (5 : BitVec 3).toNat ∧ 5 ≤ (7 : BitVec 3).toNat := by decide

theorem witness_ReservedCommandRefused : open5.phase = .idle := by decide

theorem witness_TransactAccepted :
    open5.phase = .idle ∧ open5.linkOpen = true ∧ (0 : BitVec 3).toNat = 0 ∧ 5 ≤ (5 : BitVec 3).toNat ∧
    (1 : BitVec 3).toNat = channelNumber .ch1 ∧ (4 : BitVec 3).toNat = channelNumber .ch4 ∧
    ({ open5 with linkOpen := false, openAnswers := [true] } : State).openAnswers = true :: [] ∧
    ({ open5 with linkOpen := false, openAnswers := [false] } : State).openAnswers = false :: [] ∧
    ({ open5 with linkOpen := false } : State).openAnswers = [] := by decide

theorem witness_CommandsWaitWhileBusy :
    (flushing 0).phase ≠ .idle ∧ (writing 0).phase ≠ .idle ∧ (awaiting 0 []).phase ≠ .idle := by decide

theorem witness_TickInFlushing : (flushing 79).phase = .flushing ∧ (flushing 79).tmr.toNat < 65535 := by decide

theorem witness_TickWithoutEffect : (writing 5).phase = .writing ∧ open5.phase = .idle := by decide

theorem witness_TickInAwaiting :
    (awaiting 798 []).phase = .awaiting ∧ (awaiting 798 []).tmr.toNat < 65535 ∧
    ((awaiting 798 []).tmr + 1).toNat < (awaiting 798 []).cfgTTotal.toNat ∧
    ((awaiting 799 []).tmr + 1).toNat ≥ (awaiting 799 []).cfgTTotal.toNat := by decide

theorem witness_FlushDiscardsChunks : (flushing 12).phase = .flushing := by decide

theorem witness_ChunkInAwaiting : (awaiting 24 [0, 0, 0xFE, 5]).phase = .awaiting := by decide

theorem witness_ReceiverErrorEndsAttempt :
    ((flushing 79).phase = .flushing ∧ MachineInvariant (flushing 79)) ∧
    ((awaiting 799 [0, 0xFE, 5]).phase = .awaiting ∧ MachineInvariant (awaiting 799 [0, 0xFE, 5])) :=
  ⟨⟨rfl, flushing_inv⟩, ⟨rfl, awaiting_inv⟩⟩

theorem witness_TransmitterTakesByte :
    (0 < 13 ∧ (writing 0).phase = .writing ∧ (writing 0).txIdx.toNat = 0) ∧
    (12 < 13 ∧ (writing 12).phase = .writing ∧ (writing 12).txIdx.toNat = 12) := by decide

theorem witness_LastByteEndsWrite :
    (writing 13).phase = .writing ∧ (writing 13).txIdx = 13 ∧ 0 < (writing 13).cfgTTotal.toNat ∧
    ({ writing 13 with cfgTTotal := 0 } : State).cfgTTotal = 0 := by decide

theorem witness_TransmitterErrorEndsAttempt : (writing 13).phase = .writing ∧ MachineInvariant (writing 13) :=
  ⟨rfl, writing_inv⟩

theorem witness_NotEnabledEvents :
    open5.phase ≠ .writing ∧ open5.phase = .idle ∧ (writing 0).phase = .writing := by decide

theorem witness_WholeFrameSent :
    ((writing 0).phase = .writing ∧ (writing 0).txIdx = 0 ∧
      (writing 0).txf.toList = [0xFF, 0xFE, 5, 0x57, 1, 5, 200, 3, 1, 5, 1, 5, (0x39 : BitVec 7).setWidth 8, 0xFF]) ∧
    open5.phase ≠ .writing ∧ (writing 1).txIdx ≠ 0 ∧
    (writing 0).txf.toList ≠ [0xFF, 0xFE, 5, 0x57, 1, 5, 201, 3, 1, 5, 1, 5, (0x39 : BitVec 7).setWidth 8, 0xFF] := by decide

theorem witness_WholeFrameRefinesTransfers :
    (writing 0).phase = .writing ∧ (writing 0).txIdx = 0 ∧
    (writing 0).txf.toList = [0xFF, 0xFE, 5, 0x57, 1, 5, 200, 3, 1, 5, 1, 5, (0x39 : BitVec 7).setWidth 8, 0xFF] := by decide

theorem witness_AckOfAddressedModuleMatches :
    (awaiting 5 [1]).phase = .awaiting ∧ (awaiting 5 [1]).ackp = expectedAck 5 ∧
    4 ≤ ({ awaiting 5 [1] with cfgMaxBuf := 4 } : State).cfgMaxBuf.toNat := by decide

theorem witness_AckElsewhere :
    (flushing 0).phase = .flushing ∧ open5.phase = .idle ∧ (writing 0).phase = .writing ∧
    ((awaiting 5 [0xFE, 5, 6]).phase = .awaiting ∧ (awaiting 5 [0xFE, 5, 6]).ackp = expectedAck 5 ∧ (6 : Byte) ≠ 5 ∧
      containsAck (Memory.bytes (awaiting 5 [0xFE, 5, 6]).rxb) (awaiting 5 [0xFE, 5, 6]).ackp = false) := by decide

theorem witness_EventFrame :
    (∃ t, portOf .txAccept = .event ∧ exec .txAccept (writing 13) = .next t) ∧
    (∃ t, portOf (.ack 5) = .wireIn ∧ exec (.ack 5) (awaiting 5 []) = .next t) ∧
    (∃ t, portOf (.setLevels 5 1 5 200 3 1 5 1 5 0x39) = .wireOut ∧
      exec (.setLevels 5 1 5 200 3 1 5 1 5 0x39) (writing 0) = .next t) ∧
    (∃ t, exec .txErr (writing 3) = .next t ∧ t.result ≠ (writing 3).result) :=
  ⟨⟨_, rfl, rfl⟩, ⟨_, rfl, rfl⟩, ⟨_, rfl, rfl⟩, ⟨_, rfl, by decide⟩⟩

theorem witness_ChunkStores :
    (∃ t, exec (.rxChunk { first := 6, rest := [] }) (awaiting 5 []) = .next t ∧ (awaiting 5 []).phase = .awaiting) ∧
    (∃ t, exec (.rxChunk { first := 6, rest := [] }) (writing 5) = .next t ∧ (writing 5).phase ≠ .awaiting) ∧
    (∃ t, exec (.ack 6) (awaiting 5 [1]) = .next t ∧ (awaiting 5 [1]).phase = .awaiting ∧ t.phase = .awaiting) :=
  ⟨⟨_, rfl, rfl⟩, ⟨_, rfl, by decide⟩, ⟨_, rfl, rfl, by decide⟩⟩

theorem witness_CommandFrame :
    (∃ t, portOf (.cfgwr 4 8) = .cmd ∧ open5.phase = .idle ∧ exec (.cfgwr 4 8) open5 = .next t ∧
      t.cfgMaxBuf ≠ open5.cfgMaxBuf ∧ t.phase = .idle) ∧
    (∃ t, exec (.transact 5 2 200 3) open5 = .next t ∧ t.phase ≠ .idle ∧ ∀ reg v, Instr.transact 5 2 200 3 ≠ .cfgwr reg v) :=
  ⟨⟨_, rfl, rfl, rfl, by decide, by decide⟩, ⟨_, rfl, by decide, fun _ _ h => (by cases h)⟩⟩

theorem witness_HostCallFrame :
    (∃ t, portOf (.set 5 2 200 3) = .setCall ∧ exec (.set 5 2 200 3) (writing 3) = .next t ∧ t.phase = (writing 3).phase) ∧
    (∃ t, portOf (.turnOff 5 2 3) = .turnOffCall ∧ exec (.turnOff 5 2 3) open5 = .next t ∧ open5.phase = .idle ∧
      0 < open5.retryBound) :=
  ⟨⟨_, rfl, rfl, by decide⟩, ⟨_, rfl, rfl, rfl, by decide⟩⟩

theorem witness_FrameWrittenOnlyByAcceptance :
    ∃ t, exec (.transact 6 2 200 3) open5 = .next t ∧ t.ackp ≠ open5.ackp ∧ t.txf ≠ open5.txf :=
  ⟨_, rfl, by decide, by decide⟩

theorem witness_ConfigWrittenOnlyByCfgwr :
    ∃ t, exec (.cfgwr 0 7) open5 = .next t ∧ t.cfgTTotal ≠ open5.cfgTTotal :=
  ⟨_, rfl, by decide⟩

theorem witness_LinkClosedOnlyByReset :
    ∃ t, step { open5 with inputs := [.rst] } = .next t ∧ open5.linkOpen = true ∧ t.linkOpen = false :=
  ⟨_, rfl, rfl, rfl⟩

theorem witness_SequencerMoves : ∃ t, exec .txAccept (writing 13) = .next t := ⟨_, rfl⟩

/-- The invariant does not depend on what the environment delivers next. -/
theorem writing_inputs_inv (ins : List Input) : MachineInvariant { writing 13 with inputs := ins } :=
  let h := writing_inv
  ⟨⟨h.1.1, h.1.2, h.1.3, h.1.4, h.1.5⟩, fun hb => ⟨(h.2 hb).1, (h.2 hb).2, (h.2 hb).3, (h.2 hb).4⟩,
    ⟨h.3.1, h.3.2, h.3.3⟩, ⟨h.4.1, h.4.2, h.4.3, h.4.4, h.4.5⟩, ⟨h.5.1, h.5.2⟩⟩

theorem witness_BusCarriesFrameInOrder :
    ∃ t, MachineInvariant { writing 13 with inputs := [signalOf .txAccept] } ∧
      step { writing 13 with inputs := [signalOf .txAccept] } = .next t ∧ t.sent = [0xFF] :=
  ⟨_, writing_inputs_inv _, rfl, by decide⟩

theorem witness_LockReleasedWithResult :
    ∃ t, MachineInvariant (writing 13) ∧ exec .txErr (writing 13) = .next t ∧ (writing 13).phase ≠ .idle ∧ t.phase = .idle :=
  ⟨_, writing_inv, rfl, by decide, by decide⟩

theorem witness_StepKeepsInvariant :
    ∃ t, MachineInvariant { writing 13 with inputs := [signalOf .txAccept] } ∧
      step { writing 13 with inputs := [signalOf .txAccept] } = .next t ∧ t.phase = .awaiting :=
  ⟨_, writing_inputs_inv _, rfl, by decide⟩

theorem witness_ResetValues : resetBlock (writing 6) = resetBlock (writing 6) ∧ State.reset = State.reset := ⟨rfl, rfl⟩

theorem witness_ResetInAnyPhase :
    ({ writing 6 with inputs := [.rst], running := some (call 3) } : State).inputs = .rst :: [] := rfl

theorem witness_StepRunsSignal :
    ({ flushing 3 with inputs := [.signal .event [0]] } : State).inputs = .signal .event [0] :: [] ∧
    nothingWaits { flushing 3 with inputs := [.signal .event [0]] } = true ∧ decode .event [0] = .ok .tick :=
  ⟨rfl, rfl, rfl⟩

theorem witness_StepRunsCollaboratorCall :
    ({ open5 with inputs := [.call { address := 5, channel := 2, level := 200, time := .seconds 37 10 }] } : State).inputs =
      .call { address := 5, channel := 2, level := 200, time := .seconds 37 10 } :: [] ∧
    nothingWaits { open5 with inputs := [.call { address := 5, channel := 2, level := 200, time := .missing }] } = true :=
  ⟨rfl, rfl⟩

theorem witness_StepPresentsWaiting :
    (let s : State := { open5 with held := [.command .connect], inputs := [signalOf .tick] }
     s.phase = .idle ∧ s.held ≠ [] ∧ (∀ rest, s.inputs ≠ .rst :: rest) ∧ s.held = [.command .connect] ∧
       requestArrives s.inputs = false) ∧
    (let s := contended 0
     s.phase = .idle ∧ s.held ≠ [] ∧ (∀ rest, s.inputs ≠ .rst :: rest) ∧ s.arbiterPicks = 0 :: [] ∧
       s.held[0]? = some (.attempt (call 2)) ∧ requestArrives s.inputs = true) ∧
    (let s := contended 1
     s.arbiterPicks = 1 :: [] ∧ 1 = s.held.length ∧ s.inputs = .signal .cmd (encode .connect) :: [] ∧
       isRequestPort .cmd = true ∧ decode .cmd (encode .connect) = .ok .connect) ∧
    (let c : CollaboratorCall := { address := 5, channel := 2, level := 200, time := .missing }
     let s : State := { contended 1 with inputs := [.call c] }
     s.held ≠ [] ∧ s.inputs = .call c :: [] ∧ 1 = s.held.length) ∧
    (let s : State := { open5 with held := [.command .connect, .command .reserved], arbiterPicks := [1] }
     2 ≤ s.held.length ∧ s.held[1]? = some (.command .reserved)) :=
  ⟨⟨rfl, by decide, fun _ h => (by cases h), rfl, rfl⟩, ⟨rfl, by decide, fun _ h => (by cases h), rfl, rfl, rfl⟩,
    ⟨rfl, rfl, rfl, rfl, rfl⟩, ⟨by decide, rfl, rfl⟩, ⟨by decide, rfl⟩⟩

theorem witness_StepDeliversUpstream :
    ({ awaiting 3 [] with upstream := [{ first := 1, rest := [] }] } : State).phase = .awaiting ∧
    ({ flushing 3 with upstream := [{ first := 1, rest := [] }] } : State).upstream = { first := 1, rest := [] } :: [] ∧
    (∀ ins, ({ awaiting 3 [] with upstream := [{ first := 1, rest := [] }] } : State).inputs ≠ .rst :: ins) :=
  ⟨rfl, rfl, fun _ h => (by cases h)⟩

theorem witness_TimedPhasesLastExactly :
    ((flushing 0).tmr = 0 ∧ (flushing 0).phase = .flushing ∧ 0 < (flushing 0).cfgTFlushWindow.toNat ∧
      80 ≤ (flushing 0).cfgTFlushWindow.toNat) ∧
    ((awaiting 0 []).tmr = 0 ∧ (awaiting 0 []).phase = .awaiting ∧ 0 < (awaiting 0 []).cfgTTotal.toNat ∧
      800 ≤ (awaiting 0 []).cfgTTotal.toNat) := by decide

/-- 3.7 and -3.2 seconds (section 2.7): the truncated quotients are 3 and -3. -/
theorem witness_NormFadeTruncatesAndClamps :
    (0 < 10 ∧ (0 : Int) ≤ 37 ∧ (3 : Int) * 10 ≤ 37 ∧ (37 : Int) < (3 + 1) * 10) ∧
    (0 < 10 ∧ (-32 : Int) < 0 ∧ ((-3 : Int) - 1) * 10 < -32 ∧ (-32 : Int) ≤ (-3) * 10) := by decide

theorem witness_HostCallsStartTransaction :
    0 < open5.retryBound ∧ open5.phase = .idle ∧ open5.linkOpen = true ∧ (2 : BitVec 3).toNat = channelNumber .ch2 ∧
    (writing 3).phase ≠ .idle := by decide

theorem witness_TurnOffIsSetZero :
    cacheWf ({ open5 with running := some { call 3 with level := 0 } } : State).cache = true ∧
    ({ open5 with running := some { call 3 with level := 0 } } : State).running = some { call 3 with level := 0 } ∧
    ({ call 3 with level := 0 } : SetCall).level = 0 ∧ open5.phase = .idle ∧
    ({ open5 with result := .matched } : State).result = .matched ∧ open5.result ≠ .matched := by decide

theorem witness_SuccessCachesLevel :
    cacheWf open5.cache = true ∧
    ({ open5 with running := some (call 3), result := .matched } : State).running = some (call 3) ∧
    open5.phase = .idle ∧ ({ open5 with result := .matched } : State).result = .matched ∧
    0 ≤ (call 3).level.toInt ∧ (call 3).level.toInt ≤ 255 ∧ ((5, 1) : Byte × BitVec 3) ≠ (5, 2) := by decide

theorem witness_FailureKeepsCache :
    ({ open5 with running := some (call 2) } : State).running = some (call 2) ∧ open5.phase = .idle ∧
    open5.result ≠ .matched ∧ 1 < (call 2).left ∧ (call 1).left ≤ 1 := by decide

theorem witness_RetryBoundExact :
    let s : State := { open5 with
      linkOpen := false, openAnswers := [false, false, false], inputs := [signalOf (.set 5 2 200 3)] }
    s.retryBound = 2 + 1 ∧ s.phase = .idle ∧ s.linkOpen = false ∧ s.running = none ∧ s.held = [] ∧
    (2 : BitVec 3).toNat = channelNumber .ch2 ∧ s.openAnswers = List.replicate (2 + 1) false ++ [] ∧
    s.inputs = [signalOf (.set 5 2 200 3)] := by decide

/-- The invariant of `open5` does not depend on the inputs and the flush window. -/
theorem open5_inputs_inv (ins : List Input) (w : Half) : MachineInvariant { open5 with inputs := ins, cfgTFlushWindow := w } :=
  let h := open5_inv
  ⟨⟨h.1.1, h.1.2, h.1.3, h.1.4, h.1.5⟩, fun hb => absurd rfl hb,
    ⟨fun hp => (by cases hp), fun hp => (by cases hp), fun hp => (by cases hp)⟩,
    ⟨h.4.1, h.4.2, h.4.3, h.4.4, h.4.5⟩, ⟨h.5.1, h.5.2⟩⟩

/-- With flush windows of 0, 1 and 80 ticks. -/
theorem witness_AnsweredSetSucceeds : ∀ w ∈ ([0, 1, 80] : List Half),
    let s : State := { open5 with
      inputs := signalOf (.set 5 2 200 3) :: (List.replicate w.toNat (signalOf .tick) ++
        [signalOf (.setLevels 5 1 5 200 3 1 5 1 5 0x39), signalOf (.ack 5)])
      cfgTFlushWindow := w }
    MachineInvariant s ∧ s.phase = .idle ∧ s.linkOpen = true ∧ s.held = [] ∧ s.upstream = [] ∧ 0 < s.retryBound ∧
    0 < s.cfgTTotal.toNat ∧ (2 : BitVec 3).toNat = channelNumber .ch2 ∧
    0 ≤ (200 : Half).toInt ∧ (200 : Half).toInt ≤ 255 ∧
    (encodeSet 5 .ch2 (200 : Half).toInt (3 : Half).toInt).toList =
      [0xFF, 0xFE, 5, 0x57, 1, 5, 200, 3, 1, 5, 1, 5, (0x39 : BitVec 7).setWidth 8, 0xFF] ∧
    s.inputs = signalOf (.set 5 2 200 3) :: (List.replicate s.cfgTFlushWindow.toNat (signalOf .tick) ++
      [signalOf (.setLevels 5 1 5 200 3 1 5 1 5 0x39), signalOf (.ack 5)]) :=
  fun w _ => ⟨open5_inputs_inv _ w, rfl, rfl, rfl, rfl, (by decide : 0 < 3), (by decide : 0 < 800), by decide, by decide, by decide, by decide,
    rfl⟩

end Sys2Proof.Tests
end

/-! # What an instruction and a step can do

Inversion lemmas over the whole instruction set: the rules about the state cite them in place of the arms of `exec`. -/

namespace Sys2Proof.Machine

open Sys2Proof

/-! ## The events of the block -/

/-- What an event or a wire frame makes of the state: the transition table of spec/42_transaction.md R130, with the pairs that are not
enabled (R131) as `stay` and `wait`. -/
inductive EventEffect (s : State) : State → Prop
  | stay : EventEffect s s
  | wait (upstream : List Chunk) : EventEffect s { s with upstream := upstream }
  | countFlush (hp : s.phase = .flushing) (hn : nextCount s < s.cfgTFlushWindow.toNat) : EventEffect s (countTick s)
  | endFlush (hp : s.phase = .flushing) : EventEffect s { countTick s with phase := .writing }
  | countDeadline (hp : s.phase = .awaiting) (hn : nextCount s < s.cfgTTotal.toNat) : EventEffect s (countTick s)
  | deadline (hp : s.phase = .awaiting) (hn : s.cfgTTotal.toNat ≤ nextCount s) :
      EventEffect s (raise .noAckTimeout (countTick s))
  | receive (c : Chunk) (hp : s.phase = .awaiting)
      (hm : containsAck (Memory.bytes (Memory.append s.rxb (chunkBytes c) s.cfgMaxBuf.toNat)) s.ackp = false) :
      EventEffect s { s with rxb := Memory.append s.rxb (chunkBytes c) s.cfgMaxBuf.toNat }
  | hit (c : Chunk) (hp : s.phase = .awaiting)
      (hm : containsAck (Memory.bytes (Memory.append s.rxb (chunkBytes c) s.cfgMaxBuf.toNat)) s.ackp = true) :
      EventEffect s (raise .matched { s with rxb := Memory.append s.rxb (chunkBytes c) s.cfgMaxBuf.toNat })
  | readError (hp : s.phase = .flushing ∨ s.phase = .awaiting) : EventEffect s (raise .readError s)
  | writeError (hp : s.phase = .writing) : EventEffect s (raise .writeFailed s)
  | transfer (sent : List Byte) (hp : s.phase = .writing) (hi : s.txIdx.toNat < 13) :
      EventEffect s { s with sent := sent, txIdx := s.txIdx + 1 }
  | written (sent : List Byte) (hp : s.phase = .writing) (hi : s.txIdx = 13 ∨ s.txIdx = 0) (ht : 0 < s.cfgTTotal.toNat) :
      EventEffect s { s with sent := sent, txIdx := 14, tmr := 0, phase := .awaiting }
  | writtenNoWait (sent : List Byte) (hp : s.phase = .writing) (hi : s.txIdx = 13 ∨ s.txIdx = 0) (ht : s.cfgTTotal = 0) :
      EventEffect s (raise .noAckTimeout { s with sent := sent, txIdx := 14, tmr := 0 })

theorem tickBlock_effect (s : State) : EventEffect s (tickBlock s) := by
  obtain ⟨-, h⟩ | ⟨hp, hn, h⟩ | ⟨hp, -, h⟩ | ⟨hp, hn, h⟩ | ⟨hp, hn, h⟩ := tickBlock_cases s <;> rw [h]
  · exact .stay
  · exact .countFlush hp hn
  · exact .endFlush hp
  · exact .countDeadline hp hn
  · exact .deadline hp hn

theorem receiveChunk_effect (c : Chunk) (s : State) : EventEffect s (receiveChunk c s) := by
  obtain ⟨-, h⟩ | ⟨-, h⟩ | ⟨hp, ⟨hm, h⟩ | ⟨hm, h⟩⟩ := receiveChunk_cases c s <;> rw [h]
  · exact .wait _
  · exact .stay
  · exact .receive c hp hm
  · exact .hit c hp hm

theorem receiveError_effect (s : State) : EventEffect s (receiveError s) := by
  obtain ⟨-, h⟩ | ⟨hp, h⟩ := receiveError_cases s <;> rw [h]
  · exact .stay
  · exact .readError hp

theorem transmitError_effect (s : State) : EventEffect s (transmitError s) := by
  obtain ⟨-, h⟩ | ⟨hp, h⟩ := transmitError_cases s <;> rw [h]
  · exact .stay
  · exact .writeError hp

/-- The end of the write, after the last byte of the frame or after the whole frame. -/
theorem endWrite_effect {s : State} (sent : List Byte) (hp : s.phase = .writing) (hi : s.txIdx = 13 ∨ s.txIdx = 0) :
    EventEffect s (endWrite { s with sent := sent, txIdx := 14 }) := by
  obtain ⟨ht, h⟩ | ⟨ht, h⟩ := endWrite_cases { s with sent := sent, txIdx := 14 } <;> rw [h]
  · exact .written sent hp hi ht
  · exact .writtenNoWait sent hp hi ht

theorem transmitByte_effect (s : State) : EventEffect s (transmitByte s) := by
  obtain ⟨-, h⟩ | ⟨_, hp, ⟨hi, h⟩ | ⟨hi, h⟩⟩ := transmitByte_cases s <;> rw [h]
  · exact .stay
  · exact .transfer _ hp hi
  · have hnext : s.txIdx + 1 = 14 := by rw [hi]; rfl
    rw [hnext]
    exact endWrite_effect _ hp (.inl hi)

theorem transmitFrame_effect (frame : Frame) (s : State) : EventEffect s (transmitFrame frame s) := by
  obtain ⟨-, h⟩ | ⟨hp, hi, -, h⟩ := transmitFrame_cases frame s <;> rw [h]
  · exact .stay
  · exact endWrite_effect _ hp (.inr hi)

/-- What no event of the block changes: the request, the link, the configuration, what waits at the port, and the reference host. -/
structure EventKeeps (s t : State) : Prop where
  txf : t.txf = s.txf
  ackp : t.ackp = s.ackp
  linkOpen : t.linkOpen = s.linkOpen
  cfgTTotal : t.cfgTTotal = s.cfgTTotal
  cfgTChunk : t.cfgTChunk = s.cfgTChunk
  cfgTFlushWindow : t.cfgTFlushWindow = s.cfgTFlushWindow
  cfgTFlushRead : t.cfgTFlushRead = s.cfgTFlushRead
  cfgMaxBuf : t.cfgMaxBuf = s.cfgMaxBuf
  held : t.held = s.held
  running : t.running = s.running
  cache : t.cache = s.cache
  returned : t.returned = s.returned
  retryBound : t.retryBound = s.retryBound

theorem EventEffect.keeps {s t : State} (h : EventEffect s t) : EventKeeps s t := by
  cases h <;> constructor <;> rfl

/-- No event leaves `IDLE`. -/
theorem EventEffect.idle_of_idle {s t : State} (h : EventEffect s t) (hs : s.phase = .idle) : t.phase = .idle := by
  cases h <;> simp_all

/-! ## The acceptance of a request -/

/-- The request is a `TRANSACT` with these operands, of a host command or of an attempt of a `SET` call (spec/30_encoding.md R76). -/
inductive Transacts : Request → Byte → BitVec 3 → Half → Half → Prop
  | command (address : Byte) (channel : BitVec 3) (level fade : Half) :
      Transacts (.command (.transact address channel level fade)) address channel level fade
  | attempt (c : SetCall) : Transacts (.attempt c) c.address c.channel c.level c.fade

/-- The call that holds the block after a request is accepted. -/
def runningAfter (r : Request) (s : State) : Option SetCall :=
  match r with
  | .command _ => s.running
  | .attempt c => some c

/-- The results with which an acceptance is refused, and what they say of the link. -/
inductive Refuses (s : State) : Result → Prop
  | badChannel : Refuses s .badChannel
  | badCommand : Refuses s .badCommand
  | linkUnavailable (h : s.linkOpen = false) : Refuses s .linkUnavailable

/-- What the acceptance of a request makes of the state (spec/42_transaction.md R133 to R135, R141). -/
inductive AcceptEffect (s : State) (r : Request) : State → Prop
  | connected (hr : r = .command .connect) (answers : List Bool) (draws : Nat) :
      AcceptEffect s r { s with linkOpen := true, openAnswers := answers, draws := draws, result := .none }
  | configured (reg : BitVec 3) (value : Half) (hr : r = .command (.cfgwr reg value))
      (total chunk window read : Half) (maxBuf : BitVec 13)
      (hm : maxBuf = s.cfgMaxBuf ∨ 4 ≤ maxBuf.toNat ∧ maxBuf.toNat ≤ 4096) :
      AcceptEffect s r { s with
        cfgTTotal := total, cfgTChunk := chunk, cfgTFlushWindow := window, cfgTFlushRead := read, cfgMaxBuf := maxBuf
        result := .none }
  | refused (f : Result) (answers : List Bool) (draws : Nat) (hf : Refuses s f) :
      AcceptEffect s r (raise f { s with openAnswers := answers, draws := draws, running := runningAfter r s })
  | started (address : Byte) (channel : BitVec 3) (level fade : Half) (frame : Frame) (answers : List Bool) (draws : Nat)
      (hr : Transacts r address channel level fade) (hf : operandFrame address channel level fade = some frame) :
      AcceptEffect s r (startTransaction frame (expectedAck address)
        { s with linkOpen := true, openAnswers := answers, draws := draws, running := runningAfter r s })

theorem acceptConnect_effect (s : State) : AcceptEffect s (.command .connect) (acceptConnect s) := by
  obtain ⟨ok, answers, draws, h, hopen⟩ := acceptConnect_spec s
  rw [h]
  cases ok with
  | true => exact .connected rfl answers draws
  | false =>
    have hl : s.linkOpen = false := Bool.eq_false_iff.mpr fun h' => by simpa using hopen h'
    simpa [raise, runningAfter, hl] using
      AcceptEffect.refused (r := .command .connect) .linkUnavailable answers draws (.linkUnavailable hl)

/-- A write of a configuration register changes configuration registers alone, and leaves a legal bound. -/
theorem writeConfig_spec {reg : BitVec 3} {value : Half} {s t : State} (h : writeConfig reg value s = some t) :
    ∃ total chunk window read maxBuf,
      t = { s with
        cfgTTotal := total, cfgTChunk := chunk, cfgTFlushWindow := window, cfgTFlushRead := read, cfgMaxBuf := maxBuf } ∧
      (maxBuf = s.cfgMaxBuf ∨ 4 ≤ maxBuf.toNat ∧ maxBuf.toNat ≤ 4096) := by
  obtain ⟨-, hw⟩ | ⟨-, hw⟩ | ⟨-, hw⟩ | ⟨-, hw⟩ | ⟨-, hlow, hhigh, hw⟩ | ⟨-, -, hw⟩ | ⟨-, hw⟩ :=
    writeConfig_cases reg value s <;> cases hw.symm.trans h
  · exact ⟨_, _, _, _, _, rfl, .inl rfl⟩
  · exact ⟨_, _, _, _, _, rfl, .inl rfl⟩
  · exact ⟨_, _, _, _, _, rfl, .inl rfl⟩
  · exact ⟨_, _, _, _, _, rfl, .inl rfl⟩
  · refine ⟨_, _, _, _, _, rfl, .inr ?_⟩
    rw [BitVec.toNat_setWidth, Nat.mod_eq_of_lt (by omega)]
    exact ⟨hlow, hhigh⟩

theorem acceptCfgwr_effect (reg : BitVec 3) (value : Half) (s : State) :
    AcceptEffect s (.command (.cfgwr reg value)) (acceptCfgwr reg value s) := by
  obtain ⟨t, hw, h⟩ | ⟨-, h⟩ := acceptCfgwr_cases reg value s <;> rw [h]
  · obtain ⟨total, chunk, window, read, maxBuf, rfl, hm⟩ := writeConfig_spec hw
    exact .configured reg value rfl total chunk window read maxBuf hm
  · exact .refused .badCommand s.openAnswers s.draws .badCommand

/-- Every `TRANSACT`, whether a command or an attempt of a call, is refused or starts a transaction. -/
theorem acceptTransact_effect {r : Request} {a : Byte} {c : BitVec 3} {l f : Half} (hr : Transacts r a c l f) (s : State) :
    AcceptEffect s r { acceptTransact a c l f s with running := runningAfter r s } := by
  obtain ⟨-, h⟩ | ⟨_, answers, draws, -, hl, h⟩ | ⟨frame, answers, draws, hf, h⟩ := acceptTransact_cases a c l f s <;> rw [h]
  · exact .refused .badChannel s.openAnswers s.draws .badChannel
  · exact .refused .linkUnavailable answers draws (.linkUnavailable hl)
  · exact .started a c l f frame answers draws hr hf

@[simp] theorem acceptTransact_running (a : Byte) (c : BitVec 3) (l f : Half) (s : State) :
    (acceptTransact a c l f s).running = s.running := by
  obtain ⟨-, h⟩ | ⟨_, _, _, -, -, h⟩ | ⟨_, _, _, -, h⟩ := acceptTransact_cases a c l f s <;> rw [h] <;> rfl

/-- What an accepted request can do, whatever the request. -/
theorem acceptRequest_effect (r : Request) (s : State) : AcceptEffect s r (acceptRequest r s) := by
  cases r with
  | attempt c => exact acceptTransact_effect (.attempt c) s
  | command c =>
    cases c with
    | connect => exact acceptConnect_effect s
    | cfgwr reg value => exact acceptCfgwr_effect reg value s
    | reserved => exact .refused .badCommand s.openAnswers s.draws .badCommand
    | transact a c l f =>
      have h := acceptTransact_effect (.command a c l f) s
      rwa [runningAfter, ← acceptTransact_running a c l f s] at h

/-! ## One instruction -/

/-- The request that an instruction presents at the `cmd` port (spec/42_transaction.md R132; spec/43_host_controller.md R172). -/
inductive Presents (s : State) : Instr → Request → Prop
  | command (c : HostCommand) : Presents s (instrOfCommand c) (.command c)
  | set (a : Byte) (c : BitVec 3) (l f : Half) (h : s.retryBound ≠ 0) :
      Presents s (.set a c l f) (.attempt { address := a, channel := c, level := l, fade := f, left := s.retryBound })
  | turnOff (a : Byte) (c : BitVec 3) (f : Half) (h : s.retryBound ≠ 0) :
      Presents s (.turnOff a c f) (.attempt { address := a, channel := c, level := 0, fade := f, left := s.retryBound })

/-- What an instruction makes of the state: an event of the block, a request accepted in `IDLE` or held, or a call without attempts. -/
inductive InstrEffect (s : State) (i : Instr) : State → Prop
  | event {t : State} (h : EventEffect s t) : InstrEffect s i t
  | accept {t : State} (r : Request) (hr : Presents s i r) (hp : s.phase = .idle) (h : AcceptEffect s r t) : InstrEffect s i t
  | hold (r : Request) (hr : Presents s i r) (hp : s.phase ≠ .idle) : InstrEffect s i { s with held := s.held ++ [r] }
  | noAttempt (returned : List HostReturn) : InstrEffect s i { s with returned := returned }

theorem submit_effect {s : State} {i : Instr} {r : Request} (hr : Presents s i r) : InstrEffect s i (submit r s) := by
  by_cases hp : s.phase = .idle
  · rw [submit_idle r hp]
    exact .accept r hr hp (acceptRequest_effect r _)
  · rw [submit_busy r hp]
    exact .hold r hr hp

/-- A call makes its first attempt, or none at all if its bound is 0. -/
theorem startCall_cases (a : Byte) (c : BitVec 3) (l f : Half) (s : State) :
    (∃ returned, startCall a c l f s = { s with returned := returned }) ∨
    (s.retryBound ≠ 0 ∧ startCall a c l f s =
      submit (.attempt { address := a, channel := c, level := l, fade := f, left := s.retryBound }) s) := by
  unfold startCall
  by_cases h : s.retryBound = 0
  · exact .inl ⟨_, if_pos h⟩
  · exact .inr ⟨h, if_neg h⟩

theorem startCall_effect {s : State} {i : Instr} {a : Byte} {c : BitVec 3} {l f : Half}
    (hr : s.retryBound ≠ 0 →
      Presents s i (.attempt { address := a, channel := c, level := l, fade := f, left := s.retryBound })) :
    InstrEffect s i (startCall a c l f s) := by
  obtain ⟨returned, h⟩ | ⟨hb, h⟩ := startCall_cases a c l f s <;> rw [h]
  · exact .noAttempt returned
  · exact submit_effect (hr hb)

/-- What an instruction can do, whatever the instruction. -/
theorem exec_effect {i : Instr} {s t : State} (h : exec i s = .next t) : InstrEffect s i t := by
  cases i <;> cases h
  case connect => exact submit_effect (.command .connect)
  case cfgwr reg value => exact submit_effect (.command (.cfgwr reg value))
  case transact a c l f => exact submit_effect (.command (.transact a c l f))
  case cmdReserved => exact submit_effect (.command .reserved)
  case set a c l f => exact startCall_effect (.set a c l f)
  case turnOff a c f => exact startCall_effect (.turnOff a c f)
  case setLevels => exact .event (transmitFrame_effect _ s)
  case ack => exact .event (receiveChunk_effect _ s)
  case tick => exact .event (tickBlock_effect s)
  case rxChunk c => exact .event (receiveChunk_effect c s)
  case rxErr => exact .event (receiveError_effect s)
  case txAccept => exact .event (transmitByte_effect s)
  case txErr => exact .event (transmitError_effect s)

/-! ## One step -/

/-- The reference host's look at its call changes no register of the block. -/
@[simp] theorem settle_toBlock (s : State) : (settle s).toBlock = s.toBlock := by
  obtain h | ⟨c, -, -, ⟨-, h⟩ | ⟨-, -, h⟩ | ⟨-, -, h⟩⟩ := settle_cases s <;> rw [h]
  · obtain ⟨_, _, hs, -⟩ := succeed_spec c s
    rw [hs]
  · rfl

/-- What a step makes of the state: nothing, a reset, the acceptance of a waiting request, or an instruction; after each of the last three
the reference host looks at its call. -/
inductive StepEffect (s : State) : State → Prop
  | nothing (picks : List Nat) (draws : Nat) : StepEffect s { s with arbiterPicks := picks, draws := draws }
  | reset (rest : List Input) (picks : List Nat) (draws : Nat) (h : s.inputs = .rst :: rest) :
      StepEffect s (settle (resetBlock { s with inputs := rest, arbiterPicks := picks, draws := draws }))
  | present {t : State} (k : Nat) (r : Request) (picks : List Nat) (draws : Nat) (hp : s.phase = .idle)
      (hk : s.held[k]? = some r)
      (h : AcceptEffect { s with held := s.held.eraseIdx k, arbiterPicks := picks, draws := draws } r t) :
      StepEffect s (settle t)
  | run {t : State} (i : Instr) (inputs : List Input) (upstream : List Chunk) (picks : List Nat) (draws : Nat)
      (h : InstrEffect { s with inputs := inputs, upstream := upstream, arbiterPicks := picks, draws := draws } i t) :
      StepEffect s (settle t)

theorem settleOutcome_exec_next {i : Instr} {s t : State} (h : settleOutcome (exec i s) = .next t) :
    ∃ u, InstrEffect s i u ∧ t = settle u := by
  cases he : exec i s with
  | next u =>
    rw [he] at h
    cases h
    exact ⟨u, exec_effect he, rfl⟩
  | fault f => rw [he] at h; cases h
  | refused r => rw [he] at h; cases h

/-- Taking an input, with the arbiter's fields as a contention may have left them. -/
theorem runInput_effect {s t : State} (picks : List Nat) (draws : Nat)
    (h : runInput { s with arbiterPicks := picks, draws := draws } = .next t) : StepEffect s t := by
  obtain ⟨-, hr⟩ | ⟨rest, hi, hr⟩ | ⟨_, rest, i, -, -, hr⟩ | ⟨_, _, _, _, -, -, hr⟩ :=
    runInput_cases { s with arbiterPicks := picks, draws := draws } <;> rw [hr] at h
  · cases h
    exact .nothing picks draws
  · cases h
    exact .reset rest picks draws hi
  · obtain ⟨u, hu, rfl⟩ := settleOutcome_exec_next h
    exact .run i rest s.upstream picks draws hu
  · cases h

/-- What a step can do, whoever moves. -/
theorem step_effect {s t : State} (h : step s = .next t) : StepEffect s t := by
  obtain ⟨k, r, picks, draws, hp, hk, hs⟩ | ⟨c, upstream, -, -, hs⟩ | ⟨picks, draws, hs⟩ := step_cases s <;> rw [hs] at h
  · cases h
    exact .present k r picks draws hp hk (acceptRequest_effect r _)
  · obtain ⟨u, hu, rfl⟩ := settleOutcome_exec_next h
    exact .run (.rxChunk c) s.inputs upstream s.arbiterPicks s.draws hu
  · exact runInput_effect picks draws h

end Sys2Proof.Machine

/-! # Whole-machine rules of the state

Reset values, and what a step may do to the request, the configuration, the link and the sequencer: each rule is read off the
inversion lemmas `exec_effect` and `step_effect`. -/

namespace Sys2Proof.Machine

open Sys2Proof

/-! ## Reset -/

/-- Settles O45: the first reset and every later one leave `Block.resetAt`, for some number of free bytes taken before. -/
theorem resetValues : Obligations.ResetValues := by
  refine ⟨?_, fun s0 => ⟨rfl, rfl, rfl, rfl⟩⟩
  have values (s : State) (n : Nat) (h : s.toBlock = Block.resetAt n) :
      s.phase = .idle ∧ s.txIdx = 0 ∧ s.result = .none ∧ s.linkOpen = false ∧ s.tmr = 0 ∧ s.rxb = [] ∧
      s.cfgTTotal = 800 ∧ s.cfgTChunk = 120 ∧ s.cfgTFlushWindow = 80 ∧ s.cfgTFlushRead = 10 ∧ s.cfgMaxBuf = 4096 ∧
      busy s = false ∧ cmdReady s = true ∧ txValid s = false ∧ rxReady s = false ∧ done s = false ∧ matched s = false := by
    simp [busy, cmdReady, txValid, rxReady, done, matched, h]
  rintro s (rfl | ⟨s0, rfl⟩)
  · exact values _ 0 rfl
  · exact values _ s0.draws rfl

/-! ## The request -/

/-- An instruction that presents a `TRANSACT` names its operands. -/
theorem Presents.operands {s : State} {i : Instr} {r : Request} {a : Byte} {c : BitVec 3} {l f : Half}
    (h : Presents s i r) (ht : Transacts r a c l f) :
    i = .transact a c l f ∨ i = .set a c l f ∨ (i = .turnOff a c f ∧ l = 0) := by
  cases ht <;> cases h
  case command.command => exact .inl rfl
  case attempt.set => exact .inr (.inl rfl)
  case attempt.turnOff => exact .inr (.inr ⟨rfl, rfl⟩)

/-- An acceptance leaves the request registers alone, or latches frame and pattern of the operands of a `TRANSACT`. -/
theorem AcceptEffect.request {s t : State} {r : Request} (h : AcceptEffect s r t) :
    (t.txf = s.txf ∧ t.ackp = s.ackp) ∨
    ∃ a c l f, Transacts r a c l f ∧ operandFrame a c l f = some t.txf ∧ t.ackp = expectedAck a := by
  cases h with
  | connected => exact .inl ⟨rfl, rfl⟩
  | configured => exact .inl ⟨rfl, rfl⟩
  | refused => exact .inl ⟨rfl, rfl⟩
  | started a c l f frame answers draws hr hf => exact .inr ⟨a, c, l, f, hr, hf, rfl⟩

/-- Settles O37: only the start of a transaction writes the request registers. -/
theorem frameWrittenOnlyByAcceptance : Obligations.FrameWrittenOnlyByAcceptance := by
  intro i s t h hne
  cases exec_effect h with
  | event he => exact absurd hne (by simp [he.keeps.txf, he.keeps.ackp])
  | hold => simp at hne
  | noAttempt => simp at hne
  | accept r hr hp ha =>
    obtain ⟨htxf, hackp⟩ | ⟨a, c, l, f, ht, hf, hackp⟩ := ha.request
    · exact absurd hne (by simp [htxf, hackp])
    · obtain ⟨target, hc, hframe⟩ := operandFrame_eq_some.mp hf
      exact ⟨hp, a, c, l, f, hr.operands ht, target, hc, hframe, hackp⟩

/-! ## The configuration -/

/-- Only the instruction `CFGWR` presents the request `CFGWR`. -/
theorem Presents.eq_cfgwr {s : State} {i : Instr} {reg : BitVec 3} {value : Half}
    (h : Presents s i (.command (.cfgwr reg value))) : i = .cfgwr reg value := by
  cases h; rfl

/-- Settles O38: of all effects only that of an accepted `CFGWR` touches a configuration register. -/
theorem configWrittenOnlyByCfgwr : Obligations.ConfigWrittenOnlyByCfgwr := by
  intro i s t h hne
  cases exec_effect h with
  | event he =>
    exact absurd hne (by simp [he.keeps.cfgTTotal, he.keeps.cfgTChunk, he.keeps.cfgTFlushWindow, he.keeps.cfgTFlushRead,
      he.keeps.cfgMaxBuf])
  | hold => simp at hne
  | noAttempt => simp at hne
  | accept r hr hp ha =>
    cases ha with
    | connected => simp at hne
    | refused => simp at hne
    | started => simp at hne
    | configured reg value hreq =>
      subst hreq
      exact ⟨hp, reg, value, hr.eq_cfgwr⟩

/-! ## The link -/

theorem AcceptEffect.keeps_link {s t : State} {r : Request} (h : AcceptEffect s r t) (hs : s.linkOpen = true) :
    t.linkOpen = true := by
  cases h with
  | connected => rfl
  | configured => exact hs
  | refused => exact hs
  | started => rfl

theorem InstrEffect.keeps_link {s t : State} {i : Instr} (h : InstrEffect s i t) (hs : s.linkOpen = true) :
    t.linkOpen = true := by
  cases h with
  | event he => exact he.keeps.linkOpen.trans hs
  | accept r hr hp ha => exact ha.keeps_link hs
  | hold => exact hs
  | noAttempt => exact hs

@[simp] theorem settle_linkOpen (s : State) : (settle s).linkOpen = s.linkOpen :=
  congrArg Block.linkOpen (settle_toBlock s)

/-- Settles O39: every mover but a reset keeps an open link open. -/
theorem linkClosedOnlyByReset : Obligations.LinkClosedOnlyByReset := by
  intro s t h hs ht
  cases step_effect h with
  | nothing => exact absurd (hs.symm.trans ht) (by decide)
  | reset rest picks draws hi => exact ⟨rest, hi⟩
  | present k r picks draws hp hk ha =>
    rw [settle_linkOpen, ha.keeps_link hs] at ht
    cases ht
  | run i inputs upstream picks draws hi =>
    rw [settle_linkOpen, hi.keeps_link hs] at ht
    cases ht

/-! ## The sequencer -/

/-- The moves that R15 admits for `PHASE` and `TXIDX`. -/
def SequencerMove (s t : State) : Prop :=
  phaseMoves s.phase t.phase = true ∧
    (t.txIdx = s.txIdx ∨
      (s.phase = .writing ∧ s.txIdx.toNat ≤ 13 ∧ t.txIdx = s.txIdx + 1) ∨
      (s.phase = .writing ∧ s.txIdx = 0 ∧ t.txIdx = 14) ∨
      (s.phase = .idle ∧ t.phase ≠ .idle ∧ t.txIdx = 0))

@[simp] theorem phaseMoves_self (p : Phase) : phaseMoves p p = true := by cases p <;> rfl

@[simp] theorem phaseMoves_to_idle (p : Phase) : phaseMoves p .idle = true := by cases p <;> rfl

/-- The fourteenth transfer and the whole frame are both moves of the index to 14. -/
theorem sequencerMove_to_14 {s t : State} (hp : s.phase = .writing) (hi : s.txIdx = 13 ∨ s.txIdx = 0)
    (ht : t.txIdx = 14) (hm : phaseMoves .writing t.phase = true) : SequencerMove s t := by
  refine ⟨by rw [hp]; exact hm, .inr ?_⟩
  obtain hi | hi := hi
  · exact .inl ⟨hp, by simp [hi], by rw [ht, hi]; rfl⟩
  · exact .inr (.inl ⟨hp, hi, ht⟩)

theorem EventEffect.sequencerMove {s t : State} (h : EventEffect s t) : SequencerMove s t := by
  cases h with
  | stay => exact ⟨phaseMoves_self _, .inl rfl⟩
  | wait => exact ⟨phaseMoves_self _, .inl rfl⟩
  | countFlush => exact ⟨phaseMoves_self _, .inl rfl⟩
  | countDeadline => exact ⟨phaseMoves_self _, .inl rfl⟩
  | receive => exact ⟨phaseMoves_self _, .inl rfl⟩
  | endFlush hp => exact ⟨by rw [hp]; rfl, .inl rfl⟩
  | deadline => exact ⟨phaseMoves_to_idle _, .inl rfl⟩
  | hit => exact ⟨phaseMoves_to_idle _, .inl rfl⟩
  | readError => exact ⟨phaseMoves_to_idle _, .inl rfl⟩
  | writeError => exact ⟨phaseMoves_to_idle _, .inl rfl⟩
  | transfer sent hp hi => exact ⟨phaseMoves_self _, .inr (.inl ⟨hp, by omega, rfl⟩)⟩
  | written sent hp hi => exact sequencerMove_to_14 hp hi rfl rfl
  | writtenNoWait sent hp hi => exact sequencerMove_to_14 hp hi rfl rfl

/-- A transaction starts in `FLUSHING`, or in `WRITING` if the flush window is 0. -/
theorem startTransaction_phase_cases (frame : Frame) (pattern : Pattern) (s : State) :
    (startTransaction frame pattern s).phase = .writing ∨
    (startTransaction frame pattern s).phase = .flushing ∧ s.cfgTFlushWindow ≠ 0 := by
  by_cases h : s.cfgTFlushWindow = 0
  · exact .inl (if_pos h)
  · exact .inr ⟨if_neg h, h⟩

theorem AcceptEffect.sequencerMove {s t : State} {r : Request} (h : AcceptEffect s r t) (hs : s.phase = .idle) :
    SequencerMove s t := by
  cases h with
  | connected => exact ⟨phaseMoves_self _, .inl rfl⟩
  | configured => exact ⟨phaseMoves_self _, .inl rfl⟩
  | refused => exact ⟨phaseMoves_to_idle _, .inl rfl⟩
  | started =>
    unfold SequencerMove
    rw [hs]
    obtain hp | ⟨hp, -⟩ := startTransaction_phase_cases _ _ _ <;> rw [hp]
    · exact ⟨rfl, .inr (.inr (.inr ⟨rfl, by decide, rfl⟩))⟩
    · exact ⟨rfl, .inr (.inr (.inr ⟨rfl, by decide, rfl⟩))⟩

/-- Settles O40: each effect of an instruction is one of R15's moves. -/
theorem sequencerMoves : Obligations.SequencerMoves := by
  intro i s t h
  show SequencerMove s t
  cases exec_effect h with
  | event he => exact he.sequencerMove
  | accept r hr hp ha => exact ha.sequencerMove hp
  | hold => exact ⟨phaseMoves_self _, .inl rfl⟩
  | noAttempt => exact ⟨phaseMoves_self _, .inl rfl⟩

end Sys2Proof.Machine

/-! # The invariant of the machine

A step is an effect on the block and then the reference host's look at its call. Between the two, the call may stand in `IDLE`, so the
effects keep a weaker invariant (`UnsettledInvariant`), from which `settle` restores `MachineInvariant`. -/

namespace Sys2Proof.Machine

open Sys2Proof

/-! ## The parts of the invariant -/

/-- What a result records (spec/60_exceptions.md R190), result by result. -/
def Records (s : State) : Result → Prop
  | .none => True
  | .matched => s.txIdx = 14 ∧ containsAck (Memory.bytes s.rxb) s.ackp = true
  | .noAckTimeout => s.txIdx = 14 ∧ s.tmr = s.cfgTTotal ∧ containsAck (Memory.bytes s.rxb) s.ackp = false
  | .writeFailed => s.txIdx.toNat ≤ 13 ∧ s.rxb = []
  | .readError => (s.txIdx = 0 ∧ s.rxb = []) ∨ s.txIdx = 14
  | .linkUnavailable => s.linkOpen = false
  | .badChannel => True
  | .badCommand => True

theorem ResultRecorded.of_records {s : State} (h : Records s s.result) : ResultRecorded s := by
  constructor <;> intro hr <;> rw [hr] at h <;> exact h

theorem ResultRecorded.of_none {s : State} (h : s.result = .none) : ResultRecorded s :=
  .of_records (by rw [h]; trivial)

theorem PhaseConsistent.of_idle {s : State} (hp : s.phase = .idle) : PhaseConsistent s := by
  constructor <;> simp [hp]

theorem PhaseConsistent.of_flushing {s : State} (hp : s.phase = .flushing)
    (h : s.txIdx = 0 ∧ s.tmr.toNat < s.cfgTFlushWindow.toNat ∧ s.rxb = []) : PhaseConsistent s := by
  constructor <;> simp [hp, h]

theorem PhaseConsistent.of_writing {s : State} (hp : s.phase = .writing) (h : s.txIdx.toNat ≤ 13 ∧ s.rxb = []) :
    PhaseConsistent s := by
  constructor <;> simp [hp, h]

theorem PhaseConsistent.of_awaiting {s : State} (hp : s.phase = .awaiting)
    (h : s.txIdx = 14 ∧ s.tmr.toNat < s.cfgTTotal.toNat ∧ containsAck (Memory.bytes s.rxb) s.ackp = false) :
    PhaseConsistent s := by
  constructor <;> simp [hp, h]

/-- The invariant's clauses about the block, the caches' canonical form with them. -/
structure BlockInvariant (s : State) : Prop where
  registers : RegistersInBounds s
  busy : s.phase ≠ .idle → BusyConsistent s
  phases : PhaseConsistent s
  results : ResultRecorded s

theorem BlockInvariant.of_idle {s : State} (hp : s.phase = .idle) (hreg : RegistersInBounds s)
    (hres : Records s s.result) : BlockInvariant s :=
  ⟨hreg, fun h => absurd hp h, .of_idle hp, .of_records hres⟩

theorem BlockInvariant.of_busy {s : State} (hreg : RegistersInBounds s) (hbusy : BusyConsistent s)
    (hphase : PhaseConsistent s) : BlockInvariant s :=
  ⟨hreg, fun _ => hbusy, hphase, .of_none hbusy.result⟩

theorem BlockInvariant.of_raise {s : State} {f : Result} (hreg : RegistersInBounds s) (h : Records s f) :
    BlockInvariant (raise f s) :=
  .of_idle rfl { hreg with } (by cases f <;> exact h)

/-- These clauses speak of the block's registers and the caches alone. -/
theorem BlockInvariant.congr {s t : State} (h : BlockInvariant s) (hblock : t.toBlock = s.toBlock)
    (hcache : cacheWf t.cache = true) : BlockInvariant t := by
  obtain ⟨block, ports, controllers⟩ := t
  subst hblock
  exact ⟨{ h.registers with cache_canonical := hcache }, fun hp => { h.busy hp with }, { h.phases with }, { h.results with }⟩

/-- The invariant's clauses about the reference host while its call has not looked at the result yet: the call that holds the block may
stand in `IDLE`. -/
structure CallsConsistent (s : State) : Prop where
  attempts : ∀ c, s.running = some c → 1 ≤ c.left
  request : ∀ c, s.running = some c → s.phase ≠ .idle →
    operandFrame c.address c.channel c.level c.fade = some s.txf ∧ s.ackp = expectedAck c.address
  waiting : ∀ c, Request.attempt c ∈ s.held → 1 ≤ c.left

/-- What holds between an effect and the reference host's look at its call. -/
structure UnsettledInvariant (s : State) : Prop where
  block : BlockInvariant s
  calls : CallsConsistent s

theorem MachineInvariant.unsettled {s : State} (h : MachineInvariant s) : UnsettledInvariant s where
  block := ⟨h.registers, h.busy, h.phases, h.results⟩
  calls := ⟨fun c hc => (h.host.running c hc).2.1, fun c hc _ => (h.host.running c hc).2.2, h.host.waiting⟩

/-- In `IDLE` the invariant says that no call holds the block. -/
theorem MachineInvariant.no_call {s : State} (h : MachineInvariant s) (hp : s.phase = .idle) : s.running = none :=
  Option.eq_none_iff_forall_ne_some.mpr fun c hc => (h.host.running c hc).1 hp

/-- The look at a call is due exactly while the call stands in `IDLE`. -/
theorem UnsettledInvariant.settled {s : State} (h : UnsettledInvariant s) (hc : ∀ c, s.running = some c → s.phase ≠ .idle) :
    MachineInvariant s where
  registers := h.block.registers
  busy := h.block.busy
  phases := h.block.phases
  results := h.block.results
  host := ⟨fun c hr => ⟨hc c hr, h.calls.attempts c hr, h.calls.request c hr (hc c hr)⟩, h.calls.waiting⟩

/-- What the environment delivers, what waits upstream, the arbiter's choices and the other ports do not matter; of the requests at the
port, only the attempts do. -/
theorem MachineInvariant.congr {s t : State} (h : MachineInvariant s) (hblock : t.toBlock = s.toBlock)
    (hcache : t.cache = s.cache) (hrunning : t.running = s.running)
    (hheld : ∀ c, Request.attempt c ∈ t.held → Request.attempt c ∈ s.held) : MachineInvariant t := by
  have hphase : t.phase = s.phase := congrArg Block.phase hblock
  have htxf : t.txf = s.txf := congrArg Block.txf hblock
  have hackp : t.ackp = s.ackp := congrArg Block.ackp hblock
  refine UnsettledInvariant.settled ⟨h.unsettled.block.congr hblock (hcache ▸ h.registers.cache_canonical), ?_⟩ ?_
  · refine ⟨?_, ?_, fun c hc => h.host.waiting c (hheld c hc)⟩
    · rw [hrunning]; exact h.unsettled.calls.attempts
    · rw [hrunning, hphase, htxf, hackp]; exact h.unsettled.calls.request
  · rw [hrunning, hphase]; exact fun c hc => (h.host.running c hc).1

/-! ## The reference host's look at its call -/

/-- Where no call holds the block, the host has only the attempts that wait to answer for. -/
theorem CallsConsistent.of_no_call {s : State} (hr : s.running = none) (hw : ∀ c, Request.attempt c ∈ s.held → 1 ≤ c.left) :
    CallsConsistent s :=
  ⟨by simp [hr], by simp [hr], hw⟩

/-- A call that has left the block leaves the whole invariant, if the block is as it was. -/
theorem UnsettledInvariant.settled_of_no_call {s t : State} (h : UnsettledInvariant s) (hblock : t.toBlock = s.toBlock)
    (hcache : cacheWf t.cache = true) (hr : t.running = none) (hw : ∀ c, Request.attempt c ∈ t.held → 1 ≤ c.left) :
    MachineInvariant t :=
  UnsettledInvariant.settled ⟨h.block.congr hblock hcache, .of_no_call hr hw⟩ (by simp [hr])

theorem settle_of_ended {s : State} {c : SetCall} (hr : s.running = some c) (hp : s.phase = .idle) :
    settle s = if s.result = .matched then succeed c s else attemptFailed c s := by
  simp [settle, hr, hp]

theorem UnsettledInvariant.after_succeed {s : State} (h : UnsettledInvariant s) (c : SetCall) :
    MachineInvariant (succeed c s) := by
  obtain ⟨_, _, hs, -⟩ := succeed_spec c s
  rw [hs]
  exact h.settled_of_no_call rfl (cacheWf_cachePut _ _ _ h.block.registers.cache_canonical) rfl h.calls.waiting

/-- A further attempt is issued only if one is left, so every attempt that waits has one. -/
theorem UnsettledInvariant.after_attemptFailed {s : State} (h : UnsettledInvariant s) (c : SetCall) :
    MachineInvariant (attemptFailed c s) := by
  have hcache := h.block.registers.cache_canonical
  unfold attemptFailed
  split
  · exact h.settled_of_no_call rfl hcache rfl h.calls.waiting
  · rename_i hleft
    refine h.settled_of_no_call rfl hcache rfl fun c' hc' => ?_
    obtain hc' | hc' := List.mem_append.mp hc'
    · exact h.calls.waiting c' hc'
    · cases List.mem_singleton.mp hc'
      exact Nat.le_sub_one_of_lt (Nat.lt_of_not_le hleft)

/-- The host's look at its call restores the whole invariant. -/
theorem UnsettledInvariant.after_settle {s : State} (h : UnsettledInvariant s) : MachineInvariant (settle s) := by
  by_cases hp : s.phase = .idle
  · cases hr : s.running with
    | none =>
      rw [settle_of_no_call hr]
      exact h.settled (by simp [hr])
    | some c =>
      rw [settle_of_ended hr hp]
      split
      · exact h.after_succeed c
      · exact h.after_attemptFailed c
  · rw [settle_of_busy hp]
    exact h.settled fun _ _ => hp

/-! ## Reset -/

theorem BlockInvariant.of_resetAt {s : State} {n : Nat} (hblock : s.toBlock = Block.resetAt n)
    (hcache : cacheWf s.cache = true) : BlockInvariant s := by
  refine .of_idle (by simp [hblock]) ⟨?_, ?_, ?_, ?_, hcache⟩ ?_ <;> simp [hblock, Memory.len, Config.minBuf, Config.maxBufHw, Records]

/-- Settles O43: no call runs and nothing waits, and the block holds its reset values. -/
theorem invariantAtReset : Obligations.InvariantAtReset :=
  UnsettledInvariant.settled ⟨.of_resetAt (n := 0) rfl rfl, .of_no_call rfl (by simp [State.reset])⟩ (by simp [State.reset])

/-- A reset may leave a call in `IDLE` (log 16). -/
theorem MachineInvariant.after_reset {s : State} (h : MachineInvariant s) : UnsettledInvariant (resetBlock s) where
  block := .of_resetAt (n := s.draws) rfl h.registers.cache_canonical
  calls := ⟨h.unsettled.calls.attempts, fun _ _ hp => absurd rfl hp, h.host.waiting⟩

/-! ## Events -/

/-- Below a bound the timer counts exactly. -/
theorem countTick_tmr_toNat {s : State} {bound : Half} (h : s.tmr.toNat < bound.toNat) :
    (countTick s).tmr.toNat = nextCount s := by
  rw [countTick_tmr, nextCount]
  bv_omega

/-- A chunk leaves a canonical buffer within the bound in force, hence within the physical size. -/
theorem RegistersInBounds.after_append {s : State} (h : RegistersInBounds s) (c : Chunk) :
    RegistersInBounds { s with rxb := Memory.append s.rxb (chunkBytes c) s.cfgMaxBuf.toNat } :=
  { h with
    rxb_canonical := wf_append _ _ _
    rxb_fits := Nat.le_trans (len_append_le _ _ _) h.maxBuf_legal.2 }

/-- Each row of the transition table keeps the block's clauses: the phase it enters, or the result it records, asks for what the phase it
leaves says. -/
theorem BlockInvariant.after_event {s t : State} (h : BlockInvariant s) (he : EventEffect s t) : BlockInvariant t := by
  cases he with
  | stay => exact h
  | wait => exact h.congr rfl h.registers.cache_canonical
  | countFlush hp hn =>
    obtain ⟨hidx, htmr, hrxb⟩ := h.phases.flushing hp
    exact .of_busy { h.registers with } { h.busy (by simp [hp]) with }
      (.of_flushing hp ⟨hidx, by rw [countTick_tmr_toNat htmr]; exact hn, hrxb⟩)
  | endFlush hp =>
    obtain ⟨hidx, -, hrxb⟩ := h.phases.flushing hp
    exact .of_busy { h.registers with } { h.busy (by simp [hp]) with } (.of_writing rfl ⟨by simp [hidx], hrxb⟩)
  | countDeadline hp hn =>
    obtain ⟨hidx, htmr, hack⟩ := h.phases.awaiting hp
    exact .of_busy { h.registers with } { h.busy (by simp [hp]) with }
      (.of_awaiting hp ⟨hidx, by rw [countTick_tmr_toNat htmr]; exact hn, hack⟩)
  | deadline hp hn =>
    obtain ⟨hidx, htmr, hack⟩ := h.phases.awaiting hp
    have hend : (countTick s).tmr = s.cfgTTotal :=
      BitVec.eq_of_toNat_eq ((countTick_tmr_toNat htmr).trans (Nat.le_antisymm htmr hn))
    exact .of_raise { h.registers with } ⟨hidx, hend, hack⟩
  | receive c hp hm =>
    obtain ⟨hidx, htmr, -⟩ := h.phases.awaiting hp
    exact .of_busy (h.registers.after_append c) { h.busy (by simp [hp]) with bounded := len_append_le _ _ _ }
      (.of_awaiting hp ⟨hidx, htmr, hm⟩)
  | hit c hp hm =>
    obtain ⟨hidx, -, -⟩ := h.phases.awaiting hp
    exact .of_raise (h.registers.after_append c) ⟨hidx, hm⟩
  | readError hp =>
    refine .of_raise h.registers ?_
    obtain hp | hp := hp
    · obtain ⟨hidx, -, hrxb⟩ := h.phases.flushing hp
      exact .inl ⟨hidx, hrxb⟩
    · exact .inr (h.phases.awaiting hp).1
  | writeError hp => exact .of_raise h.registers (h.phases.writing hp)
  | transfer sent hp hi =>
    obtain ⟨-, hrxb⟩ := h.phases.writing hp
    have hnext : (s.txIdx + 1).toNat ≤ 13 := by bv_omega
    exact .of_busy { h.registers with txIdx_bound := Nat.le_succ_of_le hnext } { h.busy (by simp [hp]) with }
      (.of_writing hp ⟨hnext, hrxb⟩)
  | written sent hp hi ht =>
    obtain ⟨-, hrxb⟩ := h.phases.writing hp
    exact .of_busy { h.registers with txIdx_bound := Nat.le_refl 14 } { h.busy (by simp [hp]) with }
      (.of_awaiting rfl ⟨rfl, ht, by simp [hrxb, containsAck]⟩)
  | writtenNoWait sent hp hi ht =>
    obtain ⟨-, hrxb⟩ := h.phases.writing hp
    exact .of_raise { h.registers with txIdx_bound := Nat.le_refl 14 } ⟨rfl, ht.symm, by simp [hrxb, containsAck]⟩

/-- No event touches the request of the call, and none that leaves the block busy finds it in `IDLE`. -/
theorem CallsConsistent.after_event {s t : State} (h : CallsConsistent s) (he : EventEffect s t) : CallsConsistent t where
  attempts := by rw [he.keeps.running]; exact h.attempts
  request := by
    rw [he.keeps.running, he.keeps.txf, he.keeps.ackp]
    exact fun c hc hp => h.request c hc fun hs => hp (he.idle_of_idle hs)
  waiting := by rw [he.keeps.held]; exact h.waiting

/-! ## Requests -/

theorem runningAfter_eq_some {r : Request} {s : State} {c : SetCall} (hs : s.running = none)
    (h : runningAfter r s = some c) : r = .attempt c := by
  cases r with
  | command => exact absurd (hs.symm.trans h) (by simp)
  | attempt => cases h; rfl

theorem Refuses.records {s : State} {f : Result} (h : Refuses s f) : Records s f := by
  cases h with
  | badChannel => trivial
  | badCommand => trivial
  | linkUnavailable hl => exact hl

/-- A frame that is latched with the pattern of its address is a request. -/
theorem requestLatched_of_operandFrame {s : State} {a : Byte} {c : BitVec 3} {l f : Half}
    (hf : operandFrame a c l f = some s.txf) (ha : s.ackp = expectedAck a) : RequestLatched s := by
  obtain ⟨target, -, hframe⟩ := operandFrame_eq_some.mp hf
  exact ⟨a, target, _, _, hframe, ha⟩

/-- A transaction starts in a consistent busy block: the link is open, the request latched, index, timer and buffer cleared. -/
theorem BlockInvariant.after_start {s : State} {a : Byte} {c : BitVec 3} {l f : Half} {frame : Frame}
    (hreg : RegistersInBounds s) (hlink : s.linkOpen = true) (hf : operandFrame a c l f = some frame) :
    BlockInvariant (startTransaction frame (expectedAck a) s) := by
  refine .of_busy { hreg with rxb_canonical := rfl, rxb_fits := Nat.zero_le _, txIdx_bound := by simp }
    ⟨hlink, rfl, requestLatched_of_operandFrame hf rfl, Nat.zero_le _⟩ ?_
  obtain hp | ⟨hp, hw⟩ := startTransaction_phase_cases frame (expectedAck a) s
  · exact .of_writing hp ⟨by simp, rfl⟩
  · refine .of_flushing hp ⟨rfl, ?_, rfl⟩
    exact Nat.pos_of_ne_zero fun h0 => hw (BitVec.eq_of_toNat_eq h0)

theorem MachineInvariant.block_after_accept {s t : State} {r : Request} (h : MachineInvariant s) (hp : s.phase = .idle)
    (ha : AcceptEffect s r t) : BlockInvariant t := by
  cases ha with
  | connected => exact .of_idle hp { h.registers with } trivial
  | configured reg value hr total chunk window read maxBuf hm =>
    refine .of_idle hp { h.registers with maxBuf_legal := ?_ } trivial
    obtain rfl | hm := hm
    · exact h.registers.maxBuf_legal
    · exact hm
  | refused f answers draws hf => exact .of_raise { h.registers with } hf.records
  | started a c l f frame answers draws hr hf => exact .after_start { h.registers with } rfl hf

/-- The call that then holds the block is the one whose attempt was accepted, with its own request latched. -/
theorem MachineInvariant.calls_after_accept {s t : State} {r : Request} (h : MachineInvariant s) (hp : s.phase = .idle)
    (hleft : ∀ c, r = .attempt c → 1 ≤ c.left) (ha : AcceptEffect s r t) : CallsConsistent t := by
  have hnone := h.no_call hp
  cases ha with
  | connected => exact .of_no_call hnone h.host.waiting
  | configured => exact .of_no_call hnone h.host.waiting
  | refused =>
    exact ⟨fun c hc => hleft c (runningAfter_eq_some hnone hc), fun _ _ hp => absurd rfl hp, h.host.waiting⟩
  | started a c l f frame answers draws hr hf =>
    refine ⟨fun c hc => hleft c (runningAfter_eq_some hnone hc), fun c hc _ => ?_, h.host.waiting⟩
    cases runningAfter_eq_some hnone hc
    cases hr
    exact ⟨hf, rfl⟩

theorem MachineInvariant.after_accept {s t : State} {r : Request} (h : MachineInvariant s) (hp : s.phase = .idle)
    (hleft : ∀ c, r = .attempt c → 1 ≤ c.left) (ha : AcceptEffect s r t) : UnsettledInvariant t :=
  ⟨h.block_after_accept hp ha, h.calls_after_accept hp hleft ha⟩

/-- A held request waits behind the others. -/
theorem MachineInvariant.after_hold {s : State} {r : Request} (h : MachineInvariant s) (hleft : ∀ c, r = .attempt c → 1 ≤ c.left) :
    UnsettledInvariant { s with held := s.held ++ [r] } := by
  refine ⟨h.unsettled.block.congr rfl h.registers.cache_canonical,
    h.unsettled.calls.attempts, h.unsettled.calls.request, fun c hc => ?_⟩
  obtain hc | hc := List.mem_append.mp hc
  · exact h.host.waiting c hc
  · exact hleft c (List.mem_singleton.mp hc).symm

/-! ## Every step -/

/-- A call presents its first attempt with all of `RETRY` left, which is not 0. -/
theorem Presents.one_le_left {s : State} {i : Instr} {r : Request} (h : Presents s i r) :
    ∀ c, r = .attempt c → 1 ≤ c.left := by
  rintro c rfl
  cases h with
  | set _ _ _ _ hb => exact Nat.one_le_iff_ne_zero.mpr hb
  | turnOff _ _ _ hb => exact Nat.one_le_iff_ne_zero.mpr hb

theorem MachineInvariant.after_instr {s t : State} {i : Instr} (h : MachineInvariant s) (hi : InstrEffect s i t) :
    UnsettledInvariant t := by
  cases hi with
  | event he => exact ⟨h.unsettled.block.after_event he, h.unsettled.calls.after_event he⟩
  | accept r hr hp ha => exact h.after_accept hp hr.one_le_left ha
  | hold r hr hp => exact h.after_hold hr.one_le_left
  | noAttempt => exact MachineInvariant.unsettled (h.congr rfl rfl rfl fun _ hc => hc)

/-- Settles O44: each effect of a step keeps the clauses about the block and the calls, and the host's look restores the rest. -/
theorem stepKeepsInvariant : Obligations.StepKeepsInvariant := by
  intro s t h hstep
  cases step_effect hstep with
  | nothing => exact h.congr rfl rfl rfl fun _ hc => hc
  | reset rest picks draws =>
    have hu : MachineInvariant { s with inputs := rest, arbiterPicks := picks, draws := draws } :=
      h.congr rfl rfl rfl fun _ hc => hc
    exact hu.after_reset.after_settle
  | present k r picks draws hp hk ha =>
    have hu : MachineInvariant { s with held := s.held.eraseIdx k, arbiterPicks := picks, draws := draws } :=
      h.congr rfl rfl rfl fun _ hc => List.mem_of_mem_eraseIdx hc
    have hleft : ∀ c, r = .attempt c → 1 ≤ c.left := fun c hc => h.host.waiting c (hc ▸ List.mem_of_getElem? hk)
    exact (hu.after_accept hp hleft ha).after_settle
  | run i inputs upstream picks draws hi =>
    have hu : MachineInvariant { s with inputs := inputs, upstream := upstream, arbiterPicks := picks, draws := draws } :=
      h.congr rfl rfl rfl fun _ hc => hc
    exact (hu.after_instr hi).after_settle

end Sys2Proof.Machine

/-! # The memory: the receive buffer, what waits upstream, and the bus

What an acknowledgement frame does to the buffer in each phase, when a chunk that waits upstream is delivered, and which bytes a step adds
to the bus (spec/20_memory.md R42, R49, R54). -/

namespace Sys2Proof.Machine

open Sys2Proof

/-! ## The bus -/

/-- What `t` adds to the bytes that `s` had sent is nothing, or in `WRITING` the bytes of the frame that the index passes. -/
def SendsInOrder (s t : State) : Prop :=
  ∃ bytes, t.sent = s.sent ++ bytes ∧
    (bytes ≠ [] → s.phase = .writing ∧
      bytes = (s.txf.toList.drop s.txIdx.toNat).take (t.txIdx.toNat - s.txIdx.toNat))

theorem SendsInOrder.of_sent_eq {s t : State} (h : t.sent = s.sent) : SendsInOrder s t :=
  ⟨[], by simp [h], fun hne => absurd rfl hne⟩

/-! ### What sends nothing -/

theorem tickBlock_sent (s : State) : (tickBlock s).sent = s.sent := by
  obtain ⟨-, h⟩ | ⟨-, -, h⟩ | ⟨-, -, h⟩ | ⟨-, -, h⟩ | ⟨-, -, h⟩ := tickBlock_cases s <;> simp [h]

theorem receiveChunk_sent (c : Chunk) (s : State) : (receiveChunk c s).sent = s.sent := by
  obtain ⟨-, h⟩ | ⟨-, h⟩ | ⟨-, ⟨-, h⟩ | ⟨-, h⟩⟩ := receiveChunk_cases c s <;> simp [h]

theorem receiveError_sent (s : State) : (receiveError s).sent = s.sent := by
  obtain ⟨-, h⟩ | ⟨-, h⟩ := receiveError_cases s <;> simp [h]

theorem transmitError_sent (s : State) : (transmitError s).sent = s.sent := by
  obtain ⟨-, h⟩ | ⟨-, h⟩ := transmitError_cases s <;> simp [h]

theorem AcceptEffect.sent {s t : State} {r : Request} (h : AcceptEffect s r t) : t.sent = s.sent := by
  cases h <;> rfl

theorem submit_sent (r : Request) (s : State) : (submit r s).sent = s.sent := by
  by_cases hp : s.phase = .idle
  · rw [submit_idle r hp]
    exact (acceptRequest_effect r s).sent
  · rw [submit_busy r hp]

theorem startCall_sent (a : Byte) (c : BitVec 3) (l f : Half) (s : State) : (startCall a c l f s).sent = s.sent := by
  obtain ⟨_, h⟩ | ⟨-, h⟩ := startCall_cases a c l f s <;> rw [h]
  exact submit_sent _ s

@[simp] theorem settle_sent (s : State) : (settle s).sent = s.sent := by
  obtain h | ⟨c, -, -, ⟨-, h⟩ | ⟨-, -, h⟩ | ⟨-, -, h⟩⟩ := settle_cases s <;> rw [h]
  · obtain ⟨_, _, hs, -⟩ := succeed_spec c s
    rw [hs]
  · rfl

/-! ### The two forms of a transfer -/

@[simp] theorem endWrite_sent (s : State) : (endWrite s).sent = s.sent := by
  obtain ⟨-, h⟩ | ⟨-, h⟩ := endWrite_cases s <;> simp [h]

@[simp] theorem endWrite_txIdx (s : State) : (endWrite s).txIdx = s.txIdx := by
  obtain ⟨-, h⟩ | ⟨-, h⟩ := endWrite_cases s <;> simp [h]

/-- A state that has taken the byte at the index has taken the one byte that the index passes. -/
theorem sendsInOrder_of_taken {s t : State} (h : s.txIdx.toNat < 14) (hp : s.phase = .writing)
    (hsent : t.sent = s.sent ++ [s.txf[s.txIdx.toNat]]) (hidx : t.txIdx = s.txIdx + 1) : SendsInOrder s t := by
  refine ⟨_, hsent, fun _ => ⟨hp, ?_⟩⟩
  have hpassed : t.txIdx.toNat - s.txIdx.toNat = 1 := by rw [hidx]; bv_omega
  have hlt : s.txIdx.toNat < s.txf.toList.length := by rw [Vector.length_toList]; exact h
  rw [hpassed, List.drop_eq_getElem_cons hlt, List.take_succ_cons, List.take_zero, Vector.getElem_toList]

theorem transmitByte_sendsInOrder (s : State) : SendsInOrder s (transmitByte s) := by
  obtain ⟨-, h⟩ | ⟨hlt, hp, ⟨-, h⟩ | ⟨-, h⟩⟩ := transmitByte_cases s <;> rw [h]
  · exact .of_sent_eq rfl
  · exact sendsInOrder_of_taken hlt hp rfl rfl
  · exact sendsInOrder_of_taken hlt hp (endWrite_sent _) (endWrite_txIdx _)

theorem transmitFrame_sendsInOrder (frame : Frame) (s : State) : SendsInOrder s (transmitFrame frame s) := by
  obtain ⟨-, h⟩ | ⟨hp, hi, rfl, h⟩ := transmitFrame_cases frame s <;> rw [h]
  · exact .of_sent_eq rfl
  · refine ⟨s.txf.toList, endWrite_sent _, fun _ => ⟨hp, ?_⟩⟩
    have hall : s.txf.toList.length ≤ 14 := Nat.le_of_eq s.txf.length_toList
    simp [hi, List.take_of_length_le hall]

/-! ### Instructions and steps -/

/-- Only `TX_ACCEPT` and `SET_LEVELS` send, and both send in order. -/
theorem exec_sendsInOrder {i : Instr} {s t : State} (h : exec i s = .next t) : SendsInOrder s t := by
  cases i <;> cases h
  case txAccept => exact transmitByte_sendsInOrder s
  case setLevels => exact transmitFrame_sendsInOrder _ s
  case connect => exact .of_sent_eq (submit_sent _ s)
  case cfgwr => exact .of_sent_eq (submit_sent _ s)
  case transact => exact .of_sent_eq (submit_sent _ s)
  case cmdReserved => exact .of_sent_eq (submit_sent _ s)
  case set => exact .of_sent_eq (startCall_sent _ _ _ _ s)
  case turnOff => exact .of_sent_eq (startCall_sent _ _ _ _ s)
  case ack => exact .of_sent_eq (receiveChunk_sent _ s)
  case rxChunk => exact .of_sent_eq (receiveChunk_sent _ s)
  case tick => exact .of_sent_eq (tickBlock_sent s)
  case rxErr => exact .of_sent_eq (receiveError_sent s)
  case txErr => exact .of_sent_eq (transmitError_sent s)

theorem SendsInOrder.settled {s t : State} (h : SendsInOrder s t) : SendsInOrder s (settle t) := by
  simpa [SendsInOrder] using h

theorem settleOutcome_exec_sendsInOrder {i : Instr} {s t : State} (h : settleOutcome (exec i s) = .next t) :
    SendsInOrder s t := by
  cases he : exec i s with
  | next u =>
    rw [he] at h
    cases h
    exact (exec_sendsInOrder he).settled
  | fault f => rw [he] at h; cases h
  | refused r => rw [he] at h; cases h

theorem runInput_sendsInOrder {s t : State} (h : runInput s = .next t) : SendsInOrder s t := by
  obtain ⟨-, hr⟩ | ⟨rest, -, hr⟩ | ⟨_, rest, i, -, -, hr⟩ | ⟨_, _, _, _, -, -, hr⟩ := runInput_cases s <;> rw [hr] at h
  · cases h
    exact .of_sent_eq rfl
  · cases h
    exact .of_sent_eq (settle_sent _)
  · exact settleOutcome_exec_sendsInOrder (s := { s with inputs := rest }) h
  · cases h

/-- Settles O41: of the movers only an instruction can send, and it sends in order; the order does not rest on the invariant. -/
theorem busCarriesFrameInOrder : Obligations.BusCarriesFrameInOrder := by
  intro s t _ h
  show SendsInOrder s t
  obtain ⟨k, r, picks, draws, -, -, hs⟩ | ⟨c, upstream, -, -, hs⟩ | ⟨picks, draws, hs⟩ := step_cases s <;> rw [hs] at h
  · cases h
    exact .of_sent_eq ((settle_sent _).trans (acceptRequest_effect r _).sent)
  · exact settleOutcome_exec_sendsInOrder (s := { s with upstream := upstream }) h
  · exact runInput_sendsInOrder (s := { s with arbiterPicks := picks, draws := draws }) h

/-! ## Acknowledgements -/

theorem startsWith_iff_prefix {pattern : Pattern} {bs : List Byte} :
    startsWith pattern bs = true ↔ pattern.toList <+: bs := by
  have hlen : pattern.toList.length = Config.ackLen := pattern.length_toList
  rw [startsWith, beq_iff_eq, List.prefix_iff_eq_take, hlen, eq_comm]

/-- `CONTAINS_ACK` says that the pattern stands somewhere in the buffer (spec/41_ack_detect.md R110). -/
theorem containsAck_iff_infix {bs : List Byte} {pattern : Pattern} :
    containsAck bs pattern = true ↔ pattern.toList <:+: bs := by
  induction bs with
  | nil =>
    have hne : pattern.toList ≠ [] := List.ne_nil_of_length_pos (by simp)
    simp [containsAck, hne]
  | cons b rest ih =>
    rw [containsAck, Bool.or_eq_true, startsWith_iff_prefix, ih, List.infix_cons_iff]

/-- A buffer that does not hold a pattern does not hold it after truncation. -/
theorem containsAck_keepLast {bs : List Byte} {pattern : Pattern} (n : Nat) (h : containsAck bs pattern = false) :
    containsAck (keepLast bs n) pattern = false := by
  rw [Bool.eq_false_iff, ne_eq, containsAck_iff_infix] at h ⊢
  exact fun hin => h (hin.trans (keepLast_suffix bs n).isInfix)

/-- The frame of module `addr` brings no occurrence of another module's pattern, not even one that begins in the buffer. Read backwards,
the pattern is `FF 06 other FE`, and at each of the four bytes that arrive it differs from the sequence that ends there. -/
theorem containsAck_append_ack_of_ne {bs : List Byte} {addr other : Byte} (hne : addr ≠ other)
    (h : containsAck bs (expectedAck other) = false) :
    containsAck (bs ++ [0xFE, addr, 0x06, 0xFF]) (expectedAck other) = false := by
  rw [Bool.eq_false_iff, ne_eq, containsAck_iff_infix, ← List.reverse_infix] at h ⊢
  have hback : (expectedAck other).toList.reverse = [0xFF, 0x06, other, 0xFE] := rfl
  have hseq : (bs ++ [0xFE, addr, 0x06, 0xFF]).reverse = 0xFF :: 0x06 :: addr :: 0xFE :: bs.reverse := by simp
  rw [hback] at h ⊢
  rw [hseq]
  simpa [List.infix_cons_iff, List.cons_prefix_cons, Ne.symm hne] using h

/-- In `AWAITING` a chunk is appended, truncated and tested; the end by a match is written out (spec/42_transaction.md R151). -/
theorem receiveChunk_awaiting {s : State} (c : Chunk) (hp : s.phase = .awaiting) :
    let rxb := Memory.append s.rxb (chunkBytes c) s.cfgMaxBuf.toNat
    receiveChunk c s =
      if containsAck (Memory.bytes rxb) s.ackp then { s with rxb := rxb, result := .matched, phase := .idle }
      else { s with rxb := rxb } := by
  obtain ⟨hp', -⟩ | ⟨hp', -⟩ | ⟨-, ⟨hm, h⟩ | ⟨hm, h⟩⟩ := receiveChunk_cases c s
  · simp [hp] at hp'
  · simp [hp] at hp'
  · exact h.trans (if_neg (Bool.eq_false_iff.mp hm)).symm
  · exact h.trans (if_pos hm).symm

theorem receiveChunk_flushing {s : State} (c : Chunk) (hp : s.phase = .flushing) : receiveChunk c s = s := by
  simp [receiveChunk, hp]

theorem receiveChunk_not_reading {s : State} (c : Chunk) (hp : s.phase = .idle ∨ s.phase = .writing) :
    receiveChunk c s = { s with upstream := s.upstream ++ [c] } := by
  obtain hp | hp := hp <;> simp [receiveChunk, hp]

/-- Settles O32: in each phase `ACK` does what the chunk of its four bytes does, and another module's brings no occurrence of the pattern. -/
theorem ackElsewhere : Obligations.AckElsewhere := by
  refine ⟨fun s addr hp => ?_, fun s addr hp => ?_, fun s addr hp => ?_⟩
  · rw [exec_ack, receiveChunk_flushing _ hp]
  · rw [exec_ack, receiveChunk_not_reading _ hp]
    rfl
  · intro rxb
    have hexec : exec (.ack addr) s = .next
        (if containsAck (Memory.bytes rxb) s.ackp then { s with rxb := rxb, result := .matched, phase := .idle }
         else { s with rxb := rxb }) :=
      congrArg _ (receiveChunk_awaiting (ackChunk addr) hp)
    refine ⟨hexec, fun other hpat hne hno => ?_⟩
    have hmiss : containsAck (Memory.bytes rxb) s.ackp = false := by
      rw [bytes_append]
      rw [hpat] at hno ⊢
      exact containsAck_keepLast _ (containsAck_append_ack_of_ne hne hno)
    rw [hexec, hmiss]
    rfl

/-! ## What waits upstream -/

/-- With a chunk waiting upstream of a block that reads, and no reset next, the receiver moves (spec/20_memory.md R54). -/
theorem nextMove_reading {s : State} {c : Chunk} {rest : List Chunk} (hp : s.phase = .flushing ∨ s.phase = .awaiting)
    (hu : s.upstream = c :: rest) (hr : ∀ ins, s.inputs ≠ .rst :: ins) : nextMove s = .deliver c rest := by
  rw [nextMove_of_not_rst hr]
  obtain hp | hp := hp <;> simp [hp, hu]

/-- Settles O50: the receiver's move is the delivery of the oldest chunk. -/
theorem stepDeliversUpstream : Obligations.StepDeliversUpstream := by
  intro s c rest hp hu hr
  rw [step, nextMove_reading hp hu hr]
  rfl

end Sys2Proof.Machine

/-! # Encoding

What bytes decode to at each port: the two wire frames, the `cmd` word and the event codes (spec/30_encoding.md R60, R61, R71, R72, R76),
and from these that the decoder inverts the encoder. -/

namespace Sys2Proof

open Machine

/-! ## Wire frames -/

/-- A checksum byte with bit 7 clear is its seven low bits. -/
theorem checksumByte_of_high {k : Byte} (h : k.extractLsb' 7 1 = 0#1) : (k.setWidth 7).setWidth 8 = k := by
  have hlt : k.toNat < 128 := by
    have hbit := congrArg BitVec.toNat h
    simp only [BitVec.extractLsb'_toNat, Nat.shiftRight_eq_div_pow, BitVec.toNat_ofNat] at hbit
    omega
  apply BitVec.eq_of_toNat_eq
  simp [Nat.mod_eq_of_lt hlt, Nat.mod_eq_of_lt k.isLt]

/-- At the transmitter's port exactly the frames of format `REQ` decode, to their fields. -/
theorem decode_wireOut_iff {bs : List Byte} {i : Instr} :
    decode .wireOut bs = .ok i ↔
      ∃ (addr l1 t1 l2 t2 l3 t3 l4 t4 : Byte) (cks : BitVec 7),
        i = .setLevels addr l1 t1 l2 t2 l3 t3 l4 t4 cks ∧
        bs = [0xFF, 0xFE, addr, 0x57, l1, t1, l2, t2, l3, t3, l4, t4, cks.setWidth 8, 0xFF] := by
  constructor
  · intro h
    simp only [decode, decodeRequest] at h
    split at h
    · split at h
      · rename_i hfix
        obtain ⟨rfl, rfl, rfl, hk, rfl⟩ := hfix
        cases h
        exact ⟨_, _, _, _, _, _, _, _, _, _, rfl, by rw [checksumByte_of_high hk]⟩
      · cases h
    · cases h
  · rintro ⟨addr, l1, t1, l2, t2, l3, t3, l4, t4, cks, rfl, rfl⟩
    simp [decode, decodeRequest]

/-- At the receiver's port exactly the frames of format `ACK` decode, to their address. -/
theorem decode_wireIn_iff {bs : List Byte} {i : Instr} :
    decode .wireIn bs = .ok i ↔ ∃ addr : Byte, i = .ack addr ∧ bs = [0xFE, addr, 0x06, 0xFF] := by
  constructor
  · intro h
    simp only [decode, decodeAck] at h
    split at h
    · split at h
      · rename_i hfix
        obtain ⟨rfl, rfl, rfl⟩ := hfix
        cases h
        exact ⟨_, rfl, rfl⟩
      · cases h
    · cases h
  · rintro ⟨addr, rfl, rfl⟩
    rfl

/-- Settles O2: the two formats, port by port. -/
theorem wireFrameLayouts : Obligations.WireFrameLayouts :=
  ⟨fun _ _ => decode_wireOut_iff, fun _ _ => decode_wireIn_iff⟩

/-! ## The `cmd` port and the event signals -/

/-- The six bytes of a word at the `cmd` port are the command of the word. -/
theorem decode_cmd_bytesOfWord (w : BitVec 45) : decode .cmd (bytesOfWord w) = .ok (decodeCommandWord w) := by
  simp [decode, decodeCommand]

theorem decodeCommandWord_of_op_0 {w : BitVec 45} (h : fieldOp w = 0) : decodeCommandWord w = .connect := by
  simp [decodeCommandWord, h]

theorem decodeCommandWord_of_op_1 {w : BitVec 45} (h : fieldOp w = 1) :
    decodeCommandWord w = .cfgwr (fieldReg w) (fieldValue w) := by
  simp [decodeCommandWord, h]

theorem decodeCommandWord_of_op_2 {w : BitVec 45} (h : fieldOp w = 2) :
    decodeCommandWord w = .transact (fieldAddress w) (fieldChannel w) (fieldLevel w) (fieldFade w) := by
  simp [decodeCommandWord, h]

theorem decodeCommandWord_of_op_3 {w : BitVec 45} (h : fieldOp w = 3) : decodeCommandWord w = .cmdReserved := by
  simp [decodeCommandWord, h]

theorem decodeCommandWord_eq_ite (w : BitVec 45) :
    decodeCommandWord w =
      if fieldOp w = 0 then .connect
      else if fieldOp w = 1 then .cfgwr (fieldReg w) (fieldValue w)
      else if fieldOp w = 2 then .transact (fieldAddress w) (fieldChannel w) (fieldLevel w) (fieldFade w)
      else .cmdReserved := by
  have hop : ∀ op : BitVec 2, op = 0 ∨ op = 1 ∨ op = 2 ∨ op = 3 := by decide
  obtain h | h | h | h := hop (fieldOp w)
  · simp [decodeCommandWord_of_op_0 h, h]
  · simp [decodeCommandWord_of_op_1 h, h]
  · simp [decodeCommandWord_of_op_2 h, h]
  · simp [decodeCommandWord_of_op_3 h, h]

/-- A first byte above 4 is the code of no event. -/
theorem decode_event_of_five_le {code : Byte} (data : List Byte) (h : 5 ≤ code.toNat) :
    decode .event (code :: data) = .error .noSuchEvent := by
  obtain ⟨n, hn⟩ := Nat.exists_eq_add_of_le' h
  simp [decode, decodeEvent, hn]

/-- Settles O3: the command by the two top bits of the word, the event by its code. -/
theorem commandAndEventWords : Obligations.CommandAndEventWords :=
  ⟨fun w => (decode_cmd_bytesOfWord w).trans (congrArg Except.ok (decodeCommandWord_eq_ite w)),
    rfl, fun _ _ => rfl, rfl, rfl, rfl, fun _ data h => decode_event_of_five_le data h⟩

/-- Settles O4: each word is put at its port and its bytes decoded. -/
theorem specWordsDecode : Obligations.SpecWordsDecode :=
  ⟨rfl, rfl, rfl, rfl, rfl, rfl, rfl, rfl, rfl, rfl⟩

/-! ## The decoder inverts the encoder -/

theorem decode_setCall_wordTransact (a : Byte) (c : BitVec 3) (l f : Half) :
    decode .setCall (bytesOfWord (wordTransact a c l f)) = .ok (.set a c l f) := by
  simp [decode, decodeSetCall]

/-- At the port of `turn_off` a word of `TRANSACT` is a call only with level 0. -/
theorem decode_turnOffCall_wordTransact (a : Byte) (c : BitVec 3) (f : Half) :
    decode .turnOffCall (bytesOfWord (wordTransact a c 0 f)) = .ok (.turnOff a c f) := by
  simp [decode, decodeTurnOffCall]

/-- Settles O1: instruction by instruction, from what the bytes of its format decode to at its port. -/
theorem decodeInvertsEncode : Obligations.DecodeInvertsEncode := by
  intro i
  cases i with
  | setLevels => exact decode_wireOut_iff.mpr ⟨_, _, _, _, _, _, _, _, _, _, rfl, rfl⟩
  | ack => exact decode_wireIn_iff.mpr ⟨_, rfl, rfl⟩
  | connect => exact (decode_cmd_bytesOfWord wordConnect).trans (by rw [decodeCommandWord_of_op_0 rfl])
  | cfgwr reg value =>
    refine (decode_cmd_bytesOfWord _).trans ?_
    rw [decodeCommandWord_of_op_1 (fieldOp_wordCfgwr reg value), fieldReg_wordCfgwr, fieldValue_wordCfgwr]
  | transact a c l f =>
    refine (decode_cmd_bytesOfWord _).trans ?_
    rw [decodeCommandWord_of_op_2 (fieldOp_wordTransact a c l f), fieldAddress_wordTransact, fieldChannel_wordTransact,
      fieldLevel_wordTransact, fieldFade_wordTransact]
  | cmdReserved => exact (decode_cmd_bytesOfWord wordReserved).trans (by rw [decodeCommandWord_of_op_3 rfl])
  | set a c l f => exact decode_setCall_wordTransact a c l f
  | turnOff a c f => exact decode_turnOffCall_wordTransact a c f
  | tick => rfl
  | rxChunk => rfl
  | rxErr => rfl
  | txAccept => rfl
  | txErr => rfl

end Sys2Proof

/-! # Well-formed request frames

A frame is one that `ENCODE_SET` builds exactly if its checksum is right and at most one channel's pair is not the filler
(spec/30_encoding.md R63 to R65, spec/40_frame_encode.md R93, R94). -/

namespace Sys2Proof.Machine

open Sys2Proof

/-! ## Payloads, pair by pair -/

/-- The (level, fade) pair of a channel in a payload (spec/30_encoding.md R60). -/
def payloadPair (p : Payload) : Channel → Byte × Byte
  | .ch1 => (p[0], p[1])
  | .ch2 => (p[2], p[3])
  | .ch3 => (p[4], p[5])
  | .ch4 => (p[6], p[7])

@[simp] theorem payloadPair_payload (target : Channel) (level fade : Int) (c : Channel) :
    payloadPair (payload target level fade) c = pairFor target c level fade := by
  cases c <;> rfl

theorem payload_ext {p q : Payload} (h : ∀ c, payloadPair p c = payloadPair q c) : p = q := by
  obtain ⟨h0, h1⟩ := Prod.mk.inj (h .ch1)
  obtain ⟨h2, h3⟩ := Prod.mk.inj (h .ch2)
  obtain ⟨h4, h5⟩ := Prod.mk.inj (h .ch3)
  obtain ⟨h6, h7⟩ := Prod.mk.inj (h .ch4)
  refine Vector.ext fun i hi => ?_
  match i, hi with
  | 0, _ => exact h0
  | 1, _ => exact h1
  | 2, _ => exact h2
  | 3, _ => exact h3
  | 4, _ => exact h4
  | 5, _ => exact h5
  | 6, _ => exact h6
  | 7, _ => exact h7

@[simp] theorem clamp_toNat (b : Byte) : clamp b.toNat = b := by
  have hb := b.isLt
  rw [clamp, if_neg (by omega), if_neg (by omega)]
  simp

/-- The payloads of requests for a channel are those with the filler pair everywhere else: `CLAMP` reaches every byte. -/
theorem exists_payload_iff {p : Payload} {target : Channel} :
    (∃ level fade, p = payload target level fade) ↔
      ∀ c, c ≠ target → payloadPair p c = (Config.fillLevel, Config.fillFade) := by
  constructor
  · rintro ⟨level, fade, rfl⟩ c hc
    rw [payloadPair_payload, pairFor, if_neg hc]
  · intro h
    refine ⟨(payloadPair p target).1.toNat, (payloadPair p target).2.toNat, payload_ext fun c => ?_⟩
    rw [payloadPair_payload, pairFor, clamp_toNat, clamp_toNat]
    split
    · rename_i hc
      rw [hc]
    · rename_i hc
      exact h c hc

/-! ## Frames, field by field -/

theorem requestFrame_payload (a : Byte) (p : Payload) (k : Byte) {i : Nat} (hi : i < 8) :
    (requestFrame a p k)[i + 4] = p[i] := by
  match i, hi with
  | 0, _ | 1, _ | 2, _ | 3, _ | 4, _ | 5, _ | 6, _ | 7, _ => rfl

theorem requestFrame_inj {a : Byte} {p q : Payload} {k k' : Byte} :
    requestFrame a p k = requestFrame a q k' ↔ p = q ∧ k = k' := by
  constructor
  · intro h
    have hbyte (i : Nat) (hi : i < 14) : (requestFrame a p k)[i] = (requestFrame a q k')[i] := by rw [h]
    refine ⟨Vector.ext fun i hi => ?_, hbyte 12 (by decide)⟩
    rw [← requestFrame_payload a p k hi, hbyte (i + 4) (by omega), requestFrame_payload]
  · rintro ⟨rfl, rfl⟩
    rfl

/-- A frame is that of `ENCODE_SET` exactly if its payload is and its checksum is right. -/
theorem requestFrame_eq_encodeSet {a : Byte} {p : Payload} {k : Byte} {target : Channel} {level fade : Int} :
    requestFrame a p k = encodeSet a target level fade ↔
      checksum a Config.cmdSet p = k ∧ p = payload target level fade := by
  rw [encodeSet, requestFrame_inj]
  constructor
  · rintro ⟨rfl, rfl⟩
    exact ⟨rfl, rfl⟩
  · rintro ⟨rfl, rfl⟩
    exact ⟨rfl, rfl⟩

/-! ## The two checks of a well-formed frame -/

theorem forall_channel {P : Channel → Prop} : (∀ c, P c) ↔ P .ch1 ∧ P .ch2 ∧ P .ch3 ∧ P .ch4 :=
  ⟨fun h => ⟨h _, h _, h _, h _⟩, fun ⟨h1, h2, h3, h4⟩ c => by cases c <;> assumption⟩

theorem exists_channel {P : Channel → Prop} : (∃ c, P c) ↔ P .ch1 ∨ P .ch2 ∨ P .ch3 ∨ P .ch4 := by
  constructor
  · rintro ⟨c, hc⟩
    cases c
    · exact .inl hc
    · exact .inr (.inl hc)
    · exact .inr (.inr (.inl hc))
    · exact .inr (.inr (.inr hc))
  · rintro (h | h | h | h) <;> exact ⟨_, h⟩

theorem isFiller_iff {level fade : Byte} :
    isFiller level fade = true ↔ (level, fade) = (Config.fillLevel, Config.fillFade) := by
  simp [isFiller]

theorem oneChannelAddressed_iff {l1 t1 l2 t2 l3 t3 l4 t4 : Byte} :
    oneChannelAddressed l1 t1 l2 t2 l3 t3 l4 t4 = true ↔
      ∃ target, ∀ c, c ≠ target →
        payloadPair #v[l1, t1, l2, t2, l3, t3, l4, t4] c = (Config.fillLevel, Config.fillFade) := by
  simp [oneChannelAddressed, isFiller_iff, exists_channel, forall_channel, payloadPair, and_assoc, or_assoc]

theorem wellFormed_setLevels_iff {addr l1 t1 l2 t2 l3 t3 l4 t4 : Byte} {cks : BitVec 7} :
    (Instr.setLevels addr l1 t1 l2 t2 l3 t3 l4 t4 cks).wellFormed = true ↔
      ∃ target level fade, fieldsFrame addr l1 t1 l2 t2 l3 t3 l4 t4 cks = encodeSet addr target level fade := by
  simp only [Instr.wellFormed, Bool.and_eq_true, checksumOk, beq_iff_eq, oneChannelAddressed_iff, ← exists_payload_iff,
    fieldsFrame, requestFrame_eq_encodeSet, exists_and_left]

/-- Settles O5: the fourteen bytes of the instruction are its frame. -/
theorem wellFormedFramesAreEncodeSet : Obligations.WellFormedFramesAreEncodeSet := by
  intro addr l1 t1 l2 t2 l3 t3 l4 t4 cks
  rw [wellFormed_setLevels_iff]
  simp only [← Vector.toList_inj]
  rfl

end Sys2Proof.Machine

/-! # Host calls, acknowledgements and what stops the machine

A call of `set` or `turn_off` is the first attempt of the reference host: what it starts and what it leaves unchanged
(spec/43_host_controller.md R172, R176). The acknowledgement of the addressed module (spec/41_ack_detect.md R110), and the only stop of the
machine (spec/30_encoding.md R72). -/

namespace Sys2Proof.Machine

open Sys2Proof

/-! ## The acknowledgement of the addressed module -/

/-- A pattern that has just arrived survives a truncation to at least its length. -/
theorem containsAck_keepLast_append (bs : List Byte) (pattern : Pattern) {n : Nat} (hn : 4 ≤ n) :
    containsAck (keepLast (bs ++ pattern.toList) n) pattern = true := by
  have hlen : pattern.toList.length ≤ (keepLast (bs ++ pattern.toList) n).length := by
    rw [keepLast_length, List.length_append, Vector.length_toList]
    omega
  exact containsAck_iff_infix.mpr
    (List.suffix_of_suffix_length_le (List.suffix_append _ _) (keepLast_suffix _ n) hlen).isInfix

/-- Settles O31: the frame is the pattern, and its four bytes are the newest in the buffer. -/
theorem ackOfAddressedModuleMatches : Obligations.AckOfAddressedModuleMatches := by
  intro s addr hp hpat hn bytes
  have hbytes : Memory.bytes (Memory.append s.rxb (chunkBytes (ackChunk addr)) s.cfgMaxBuf.toNat) =
      keepLast (Memory.bytes s.rxb ++ (expectedAck addr).toList) s.cfgMaxBuf.toNat :=
    bytes_append _ _ _
  refine ⟨_, hbytes, wf_append _ _ _, ?_⟩
  rw [exec_ack, receiveChunk_awaiting _ hp, hbytes, hpat, containsAck_keepLast_append _ _ hn]
  rfl

/-! ## What stops the machine -/

/-- Every instruction has a meaning in every state. -/
theorem exists_exec_next (i : Instr) (s : State) : ∃ t, exec i s = .next t := by
  cases i <;> exact ⟨_, rfl⟩

theorem exists_settleOutcome_exec_next (i : Instr) (s : State) : ∃ t, settleOutcome (exec i s) = .next t := by
  obtain ⟨t, h⟩ := exists_exec_next i s
  exact ⟨settle t, by rw [h]; rfl⟩

/-- Settles O51: of the movers only the environment's input can stop, and only on bits that do not decode. -/
theorem onlyImpossibleSignalsStop : Obligations.OnlyImpossibleSignalsStop := by
  intro s
  obtain ⟨k, r, picks, draws, -, -, hs⟩ | ⟨c, upstream, -, -, hs⟩ | ⟨picks, draws, hs⟩ := step_cases s <;> rw [hs]
  · exact .inl ⟨_, rfl⟩
  · exact .inl (exists_settleOutcome_exec_next _ _)
  · obtain ⟨-, hr⟩ | ⟨rest, -, hr⟩ | ⟨_, rest, i, -, -, hr⟩ | ⟨port, bytes, rest, e, hi, hd, hr⟩ :=
      runInput_cases { s with arbiterPicks := picks, draws := draws } <;> rw [hr]
    · exact .inl ⟨_, rfl⟩
    · exact .inl ⟨_, rfl⟩
    · exact .inl (exists_settleOutcome_exec_next _ _)
    · exact .inr ⟨port, bytes, rest, e, hi, hd, rfl⟩

/-! ## The start of a host call -/

/-- With an attempt to make, a call presents its first one. -/
theorem startCall_of_retry {s : State} (h : 0 < s.retryBound) (a : Byte) (c : BitVec 3) (l f : Half) :
    startCall a c l f s =
      submit (.attempt { address := a, channel := c, level := l, fade := f, left := s.retryBound }) s := by
  simp [startCall, Nat.ne_of_gt h]

/-- A `TRANSACT` with a legal channel on an open link starts its transaction. -/
theorem acceptTransact_open {s : State} {a : Byte} {c : BitVec 3} {l f : Half} {frame : Frame}
    (hl : s.linkOpen = true) (hf : operandFrame a c l f = some frame) :
    acceptTransact a c l f s = startTransaction frame (expectedAck a) s := by
  simp [acceptTransact, hf, openLink_open hl]

theorem startTransaction_phase_ne_idle (frame : Frame) (pattern : Pattern) (s : State) :
    (startTransaction frame pattern s).phase ≠ .idle := by
  rw [startTransaction_phase]
  split <;> decide

/-- In `IDLE`, on an open link and with a legal channel, a call starts a transaction and holds the block. -/
theorem startCall_open {s : State} {a : Byte} {c : BitVec 3} {f : Half} {target : Channel} (hb : 0 < s.retryBound)
    (hp : s.phase = .idle) (hl : s.linkOpen = true) (hc : c.toNat = channelNumber target) (l : Half) :
    startCall a c l f s =
      { startTransaction (encodeSet a target l.toInt f.toInt) (expectedAck a) s with
        running := some { address := a, channel := c, level := l, fade := f, left := s.retryBound } } := by
  rw [startCall_of_retry hb, submit_idle _ hp, acceptRequest,
    acceptTransact_open hl (operandFrame_eq_some.mpr ⟨target, hc, rfl⟩)]

/-- Settles O55: a call is the presentation of its first attempt, a `TRANSACT` with the call's operands. -/
theorem hostCallsStartTransaction : Obligations.HostCallsStartTransaction := by
  intro s a c l f hb call
  refine ⟨fun hp => ?_, fun hp => ?_, fun target hp hl hc => ?_⟩
  · refine ⟨acceptTransact a c l f s, ?_, ?_⟩
    · rw [exec_transact, submit_idle _ hp]
      rfl
    · rw [exec_set, startCall_of_retry hb, submit_idle _ hp]
      rfl
  · rw [exec_set, startCall_of_retry hb, submit_busy _ hp]
  · intro started
    have hstarted (lvl : Half) : startCall a c lvl f s = started lvl := startCall_open hb hp hl hc lvl
    rw [exec_set, exec_turnOff, hstarted, hstarted]
    exact ⟨rfl, rfl⟩

/-! ## What a host call leaves unchanged -/

/-- No host call touches the configuration, what the environment delivers, the bus, the caches or `RETRY`. -/
structure HostCallSpares (s t : State) : Prop where
  cfgTTotal : t.cfgTTotal = s.cfgTTotal
  cfgTChunk : t.cfgTChunk = s.cfgTChunk
  cfgTFlushWindow : t.cfgTFlushWindow = s.cfgTFlushWindow
  cfgTFlushRead : t.cfgTFlushRead = s.cfgTFlushRead
  cfgMaxBuf : t.cfgMaxBuf = s.cfgMaxBuf
  inputs : t.inputs = s.inputs
  upstream : t.upstream = s.upstream
  sent : t.sent = s.sent
  arbiterPicks : t.arbiterPicks = s.arbiterPicks
  cache : t.cache = s.cache
  retryBound : t.retryBound = s.retryBound

/-- The registers of the transaction and every byte of the buffer are as they were. -/
def KeepsTransaction (s t : State) : Prop :=
  t.txf = s.txf ∧ t.ackp = s.ackp ∧ t.txIdx = s.txIdx ∧ t.tmr = s.tmr ∧
    ∀ a, Memory.readByte t.rxb a = Memory.readByte s.rxb a

/-- What a host call leaves unchanged, with what depends on the phase and on `RETRY` (spec/43_host_controller.md R172). -/
structure HostCallKeeps (s t : State) : Prop where
  spares : HostCallSpares s t
  held : s.phase = .idle → t.held = s.held
  returned : 0 < s.retryBound → t.returned = s.returned
  transaction : t.phase = s.phase → KeepsTransaction s t

/-- An accepted attempt is refused, which leaves the registers of the transaction, or it starts one and so leaves `IDLE`. -/
theorem AcceptEffect.attempt_keeps {s t : State} {c : SetCall} (h : AcceptEffect s (.attempt c) t) (hp : s.phase = .idle) :
    HostCallKeeps s t := by
  cases h with
  | connected hr => cases hr
  | configured reg value hr => cases hr
  | refused =>
    exact ⟨by constructor <;> rfl, fun _ => rfl, fun _ => rfl, fun _ => ⟨rfl, rfl, rfl, rfl, fun _ => rfl⟩⟩
  | started =>
    refine ⟨by constructor <;> rfl, fun _ => rfl, fun _ => rfl, fun hphase => ?_⟩
    exact absurd (hphase.trans hp) (startTransaction_phase_ne_idle _ _ _)

theorem submit_attempt_keeps (c : SetCall) (s : State) : HostCallKeeps s (submit (.attempt c) s) := by
  by_cases hp : s.phase = .idle
  · rw [submit_idle _ hp]
    exact (acceptRequest_effect _ s).attempt_keeps hp
  · rw [submit_busy _ hp]
    exact ⟨by constructor <;> rfl, fun h => absurd h hp, fun _ => rfl, fun _ => ⟨rfl, rfl, rfl, rfl, fun _ => rfl⟩⟩

theorem startCall_keeps (a : Byte) (c : BitVec 3) (l f : Half) (s : State) : HostCallKeeps s (startCall a c l f s) := by
  by_cases hb : 0 < s.retryBound
  · rw [startCall_of_retry hb]
    exact submit_attempt_keeps _ s
  · obtain ⟨returned, h⟩ | ⟨hne, -⟩ := startCall_cases a c l f s
    · rw [h]
      exact ⟨by constructor <;> rfl, fun _ => rfl, fun h => absurd h hb, fun _ => ⟨rfl, rfl, rfl, rfl, fun _ => rfl⟩⟩
    · exact absurd (Nat.pos_of_ne_zero hne) hb

/-- The instructions at the ports of the host calls are the calls. -/
theorem exec_hostCall {i : Instr} (h : portOf i = .setCall ∨ portOf i = .turnOffCall) (s : State) :
    ∃ a c l f, exec i s = .next (startCall a c l f s) := by
  cases i
  case set a c l f => exact ⟨a, c, l, f, rfl⟩
  case turnOff a c f => exact ⟨a, c, 0, f, rfl⟩
  all_goals simp [portOf] at h

/-- Settles O36: a call presents an attempt, is held, or gives up without one; none of these touches more than the statement admits. -/
theorem hostCallFrame : Obligations.HostCallFrame := by
  intro i s t hport h
  obtain ⟨a, c, l, f, hexec⟩ := exec_hostCall hport s
  cases hexec.symm.trans h
  obtain ⟨hs, hheld, hreturned, htransaction⟩ := startCall_keeps a c l f s
  exact ⟨hs.cfgTTotal, hs.cfgTChunk, hs.cfgTFlushWindow, hs.cfgTFlushRead, hs.cfgMaxBuf, hs.inputs, hs.upstream, hs.sent,
    hs.arbiterPicks, hs.cache, hs.retryBound, hheld, hreturned, htransaction⟩

end Sys2Proof.Machine

/-! # The frame encoder

The values of `CHECKSUM` and `CLAMP`, the bytes of the frame that `ENCODE_SET` builds, and what `DECODE_SET` reads back
(spec/40_frame_encode.md R90, R91, R96, R97). -/

namespace Sys2Proof.Machine

open Sys2Proof

/-! ## The checksum -/

/-- A payload is its eight bytes. -/
theorem payload_eq_bytes (p : Payload) : p = #v[p[0], p[1], p[2], p[3], p[4], p[5], p[6], p[7]] :=
  payload_ext fun c => by cases c <;> rfl

/-- The second mask makes the first one idle, and both together keep the sum modulo 128 (spec/40_frame_encode.md R90). -/
theorem checksum_toNat (address command : Byte) (p : Payload) :
    (checksum address command p).toNat = checksumSum address command p % 128 := by
  have hmask : checksumSum address command p &&& 0xFF &&& 0x7F = checksumSum address command p % 128 := by
    rw [Nat.and_assoc]
    exact Nat.and_two_pow_sub_one_eq_mod _ 7
  rw [checksum, hmask, BitVec.toNat_ofNat]
  exact Nat.mod_eq_of_lt (by omega)

theorem checksumSum_eq (address command : Byte) (p : Payload) :
    checksumSum address command p =
      address.toNat + command.toNat + p[0].toNat + p[1].toNat + p[2].toNat + p[3].toNat +
        p[4].toNat + p[5].toNat + p[6].toNat + p[7].toNat := by
  rw [checksumSum, payload_eq_bytes p]
  simp [Nat.add_assoc]

theorem clamp_toNat_eq_ite (v : Int) : ((clamp v).toNat : Int) = if v < 0 then 0 else if v > 255 then 255 else v := by
  unfold clamp
  split
  · rfl
  · split
    · rfl
    · rw [BitVec.toNat_ofInt]
      omega

/-- Settles O6: the two masks are one reduction modulo 128, and `CLAMP` is exact between its bounds. -/
theorem checksumAndClampValues : Obligations.ChecksumAndClampValues :=
  ⟨fun a c p => (checksum_toNat a c p).trans (by rw [checksumSum_eq]), clamp_toNat_eq_ite⟩

/-! ## The bytes of a request frame -/

theorem requestFrame_toList (a : Byte) (p : Payload) (k : Byte) :
    (requestFrame a p k).toList = [0xFF, 0xFE, a, 0x57] ++ p.toList ++ [k, 0xFF] := by
  rw [payload_eq_bytes p]
  rfl

/-- The pair of channel `c` stands at bytes `4 + 2(c-1)` and `5 + 2(c-1)` (spec/30_encoding.md R60). -/
theorem requestFrame_pair (a : Byte) (p : Payload) (k : Byte) (c : Channel) :
    (requestFrame a p k).toList[4 + 2 * (channelNumber c - 1)]? = some (payloadPair p c).1 ∧
      (requestFrame a p k).toList[5 + 2 * (channelNumber c - 1)]? = some (payloadPair p c).2 := by
  cases c <;> exact ⟨rfl, rfl⟩

theorem requestFrame_sum (a : Byte) (p : Payload) (k : Byte) :
    ((((requestFrame a p k).toList.drop 2).take 10).map BitVec.toNat).sum = checksumSum a Config.cmdSet p := by
  rw [checksumSum, payload_eq_bytes p]
  simp [requestFrame, Nat.add_assoc]

theorem encodeSet_eq (a : Byte) (target : Channel) (level fade : Int) :
    encodeSet a target level fade =
      requestFrame a (payload target level fade) (checksum a Config.cmdSet (payload target level fade)) := rfl

theorem encodeSet_pair (a : Byte) (target : Channel) (level fade : Int) (c : Channel) :
    (encodeSet a target level fade).toList[4 + 2 * (channelNumber c - 1)]? = some (pairFor target c level fade).1 ∧
      (encodeSet a target level fade).toList[5 + 2 * (channelNumber c - 1)]? = some (pairFor target c level fade).2 := by
  rw [← payloadPair_payload]
  exact requestFrame_pair _ _ _ c

theorem pairFor_self (target : Channel) (level fade : Int) :
    pairFor target target level fade = (clamp level, clamp fade) := if_pos rfl

theorem pairFor_of_ne {target c : Channel} (h : c ≠ target) (level fade : Int) :
    pairFor target c level fade = (1, 5) := if_neg h

/-- Settles O7: the frame is a request frame around the payload, and its pairs are the payload's. -/
theorem encodeSetLaws : Obligations.EncodeSetLaws := by
  intro a target level fade f
  obtain ⟨hlevel, hfade⟩ := encodeSet_pair a target level fade target
  rw [pairFor_self] at hlevel hfade
  have hfiller (c : Channel) (hc : c ≠ target) := pairFor_of_ne hc level fade ▸ encodeSet_pair a target level fade c
  have hsum : (checksum a Config.cmdSet (payload target level fade)).toNat =
      (((f.drop 2).take 10).map BitVec.toNat).sum % 128 :=
    (checksum_toNat _ _ _).trans (congrArg (· % 128) (requestFrame_sum _ _ _).symm)
  exact ⟨rfl, rfl, rfl, rfl, rfl, hlevel, hfade, hfiller, ⟨_, rfl, hsum, by omega⟩, rfl⟩

/-! ## The check of a request frame -/

/-- What `DECODE_SET` reads from a request frame with address `a` and payload `p` (spec/40_frame_encode.md R97). -/
def decodedOf (a : Byte) (p : Payload) : DecodedSet :=
  { address := a, pairs := [payloadPair p .ch1, payloadPair p .ch2, payloadPair p .ch3, payloadPair p .ch4] }

theorem decodedOf_pair (a : Byte) (p : Payload) (c : Channel) :
    (decodedOf a p).pairs[channelNumber c - 1]? = some (payloadPair p c) := by
  cases c <;> rfl

/-- `DECODE_SET` is valid on the request frames with the right checksum, and on nothing else (spec/40_frame_encode.md R97). -/
theorem decodeSet_eq_some_iff {f : List Byte} {d : DecodedSet} :
    decodeSet f = some d ↔
      ∃ a p, f = (requestFrame a p (checksum a Config.cmdSet p)).toList ∧ d = decodedOf a p := by
  constructor
  · intro h
    unfold decodeSet at h
    split at h
    · split at h
      · rename_i hvalid
        obtain ⟨rfl, rfl, rfl, rfl, rfl⟩ := hvalid
        cases h
        exact ⟨_, #v[_, _, _, _, _, _, _, _], rfl, rfl⟩
      · cases h
    · cases h
  · rintro ⟨a, p, rfl, rfl⟩
    exact if_pos ⟨rfl, rfl, rfl, rfl, congrArg _ (payload_eq_bytes p)⟩

/-- Settles O8: the fourteen bytes are a request frame with the right checksum, which is what `ENCODE_SET` builds. -/
theorem decodeSetInvertsEncodeSet : Obligations.DecodeSetInvertsEncodeSet := by
  refine ⟨fun f d => decodeSet_eq_some_iff.trans ⟨?_, ?_⟩, fun a target level fade => ?_⟩
  · rintro ⟨a, p, rfl, rfl⟩
    exact ⟨a, _, p, requestFrame_toList a p _, rfl, rfl⟩
  · rintro ⟨a, _, p, rfl, rfl, rfl⟩
    exact ⟨a, p, (requestFrame_toList a p _).symm, rfl⟩
  · refine ⟨decodedOf a (payload target level fade), decodeSet_eq_some_iff.mpr ⟨a, _, rfl, rfl⟩, rfl, ?_⟩
    rw [decodedOf_pair, payloadPair_payload, pairFor_self]

end Sys2Proof.Machine

/-! # A call whose module answers

The run of a `SET` from an open, idle block: the call, the ticks of the flush window, the whole frame and the acknowledgement, one step each
(spec/43_host_controller.md R172, R174; spec/42_transaction.md R141, R145, R147, R151, R158). -/

namespace Sys2Proof.Machine

open Sys2Proof

/-! ## One signal, one step -/

theorem nextMove_of_nothingWaits {s : State} (h : nothingWaits s = true) : nextMove s = .input := by
  by_cases hr : ∃ rest, s.inputs = .rst :: rest
  · obtain ⟨rest, hr⟩ := hr
    exact nextMove_rst hr
  · rw [nextMove_of_not_rst fun rest h => hr ⟨rest, h⟩]
    unfold nothingWaits at h
    split <;> simp_all

/-- With nothing waiting, a step takes the environment's next signal, runs its instruction and lets the reference host look at its call. -/
theorem step_signal {s : State} {i : Instr} {rest : List Input} {f : State → State} (hw : nothingWaits s = true)
    (hi : s.inputs = signalOf i :: rest) (h : ∀ u, exec i u = .next (f u)) :
    step s = .next (settle (f { s with inputs := rest })) := by
  rw [step, nextMove_of_nothingWaits hw, runMove, runInput_signal hi (decodeInvertsEncode i), h, settleOutcome]

/-! ## The phases of the attempt -/

/-- A call that has an attempt to make on an open, idle block starts its transaction (spec/42_transaction.md R141;
spec/43_host_controller.md R172). -/
theorem step_set {s : State} {a : Byte} {c : BitVec 3} {target : Channel} {l f : Half} {rest : List Input}
    (hp : s.phase = .idle) (hheld : s.held = []) (hl : s.linkOpen = true) (hb : 0 < s.retryBound)
    (hc : c.toNat = channelNumber target) (hi : s.inputs = signalOf (.set a c l f) :: rest) :
    step s = .next
      { startTransaction (encodeSet a target l.toInt f.toInt) (expectedAck a) { s with inputs := rest } with
        running := some { address := a, channel := c, level := l, fade := f, left := s.retryBound } } := by
  have hwait : nothingWaits s = true := by simp [nothingWaits, hp, hheld]
  rw [step_signal hwait hi (exec_set · a c l f), startCall_open (s := { s with inputs := rest }) hb hp hl hc l]
  refine congrArg _ (settle_of_busy ?_)
  exact startTransaction_phase_ne_idle _ _ _

/-- A tick in `FLUSHING` with `n + 1` ticks to go ends the phase exactly if it is the last (spec/42_transaction.md R145). -/
theorem tickBlock_flushing {s : State} {n : Nat} (hp : s.phase = .flushing)
    (hn : s.tmr.toNat + (n + 1) = s.cfgTFlushWindow.toNat) :
    tickBlock s = { s with tmr := s.tmr + 1, phase := if n = 0 then .writing else .flushing } := by
  have hlast : nextCount s ≥ s.cfgTFlushWindow.toNat ↔ n = 0 := by unfold nextCount; omega
  by_cases h : n = 0 <;> simp [tickBlock, tickFlushing, countTick, hp, hlast, h]

theorem step_flushing_tick {s : State} {n : Nat} {rest : List Input} (hp : s.phase = .flushing) (hu : s.upstream = [])
    (hn : s.tmr.toNat + (n + 1) = s.cfgTFlushWindow.toNat) (hi : s.inputs = signalOf .tick :: rest) :
    step s = .next { s with inputs := rest, tmr := s.tmr + 1, phase := if n = 0 then .writing else .flushing } := by
  have hwait : nothingWaits s = true := by simp [nothingWaits, hp, hu]
  have hbusy : (if n = 0 then Phase.writing else Phase.flushing) ≠ .idle := by split <;> decide
  rw [step_signal hwait hi exec_tick, tickBlock_flushing (s := { s with inputs := rest }) hp hn, settle_of_busy hbusy]

/-- Writing the timer and the phase that a state has already leaves it as it is. -/
theorem eq_with_tmr_phase {s : State} {tmr : Half} {phase : Phase} (ht : s.tmr = tmr) (hp : s.phase = phase) :
    s = { s with tmr := tmr, phase := phase } := by
  subst ht hp
  rfl

/-- With `n` ticks of the flush window to go, and in `WRITING` already if there are none, `n` ticks take the block to the end of the window
(spec/42_transaction.md R141, R145). -/
theorem steps_flush {s : State} {n : Nat} {rest : List Input} (hp : s.phase = if n = 0 then .writing else .flushing)
    (hu : s.upstream = []) (hn : s.tmr.toNat + n = s.cfgTFlushWindow.toNat)
    (hi : s.inputs = List.replicate n (signalOf .tick) ++ rest) :
    steps n s = .next { s with inputs := rest, tmr := s.cfgTFlushWindow, phase := .writing } := by
  induction n generalizing s with
  | zero =>
    have htmr : s.tmr = s.cfgTFlushWindow := BitVec.eq_of_toNat_eq hn
    have hphase : s.phase = .writing := hp
    obtain rfl : s.inputs = rest := hi
    exact congrArg Host.Outcome.next (eq_with_tmr_phase htmr hphase)
  | succ n ih =>
    have hroom := s.cfgTFlushWindow.isLt
    have htmr : (s.tmr + 1).toNat + n = s.cfgTFlushWindow.toNat := by
      rw [BitVec.toNat_add_of_lt (by simp; omega)]
      simp
      omega
    exact (steps_next n (step_flushing_tick hp hu hn hi)).trans (ih rfl hu htmr rfl)

/-- The frame that the block offers is sent whole, and with a deadline the block awaits the acknowledgement
(spec/42_transaction.md R147, R158). -/
theorem transmitFrame_offered {s : State} (hp : s.phase = .writing) (hi : s.txIdx = 0) (ht : 0 < s.cfgTTotal.toNat) :
    transmitFrame s.txf s = { s with sent := s.sent ++ s.txf.toList, txIdx := 14, tmr := 0, phase := .awaiting } := by
  rw [transmitFrame, if_pos ⟨hp, hi, rfl⟩, endWrite, if_pos ht]

/-- Into an empty buffer the addressed module's acknowledgement brings exactly its four bytes, and ends the attempt
(spec/42_transaction.md R151). -/
theorem receiveChunk_ack {s : State} {a : Byte} (hp : s.phase = .awaiting) (hpat : s.ackp = expectedAck a)
    (hr : s.rxb = []) (hn : 4 ≤ s.cfgMaxBuf.toNat) :
    receiveChunk (ackChunk a) s =
      { s with rxb := Memory.ofBytes [0xFE, a, 0x06, 0xFF], result := .matched, phase := .idle } := by
  have hrxb : Memory.append s.rxb (chunkBytes (ackChunk a)) s.cfgMaxBuf.toNat = Memory.ofBytes (expectedAck a).toList := by
    rw [hr]
    exact congrArg Memory.ofBytes (keepLast_eq_self hn)
  have hmatch : containsAck (expectedAck a).toList (expectedAck a) = true := containsAck_iff_infix.mpr List.infix_rfl
  rw [receiveChunk_awaiting _ hp, hrxb, bytes_ofBytes, hpat, if_pos hmatch]
  rfl

/-! ## The success of the call -/

/-- What a success caches for a level of 0..255 (spec/43_host_controller.md R174). -/
def levelEntry (level : Half) : CacheEntry :=
  { isOn := decide (level.toInt > 0), brightness := BitVec.ofInt 8 level.toInt }

/-- A call with such a level has succeeded: the level is cached and given back, and nothing else changes (spec/43_host_controller.md R172,
R174). -/
def recordSuccess (c : SetCall) (s : State) : State :=
  { s with
    running := none
    cache := cachePut (controllerKey c.address c.channel) (levelEntry c.level) s.cache
    returned := s.returned ++ [.success c.address c.channel (levelEntry c.level)] }

theorem settle_of_matched {s : State} {c : SetCall} (hr : s.running = some c) (hp : s.phase = .idle)
    (hm : s.result = .matched) (h0 : 0 ≤ c.level.toInt) (h255 : c.level.toInt ≤ 255) :
    settle s = recordSuccess c s := by
  obtain ⟨brightness, draws, h, hlevel⟩ := succeed_spec c s
  obtain ⟨rfl, rfl⟩ := hlevel ⟨h0, h255⟩
  rw [settle_of_ended hr hp, if_pos hm]
  exact h

theorem currentState_of_cachePut {s : State} {a : Byte} {c : BitVec 3} {e : CacheEntry} {cache : List (Nat × CacheEntry)}
    (hwf : cacheWf cache = true) (h : s.cache = cachePut (controllerKey a c) e cache) : currentState a c s = e := by
  rw [currentState, h, cacheFind_cachePut _ _ _ _ hwf, if_pos rfl, Option.getD_some]

/-! ## The run -/

/-- The request of call `c` is latched and nothing has been received for it yet. -/
structure Unanswered (s : State) (c : SetCall) : Prop where
  running : s.running = some c
  ackp : s.ackp = expectedAck c.address
  rxb : s.rxb = []
  upstream : s.upstream = []
  maxBuf : 4 ≤ s.cfgMaxBuf.toNat

theorem step_frame {s : State} {i : Instr} {rest : List Input} (hp : s.phase = .writing) (hidx : s.txIdx = 0)
    (ht : 0 < s.cfgTTotal.toNat) (hframe : ∀ u, exec i u = .next (transmitFrame s.txf u))
    (hi : s.inputs = signalOf i :: rest) :
    step s = .next
      { s with inputs := rest, sent := s.sent ++ s.txf.toList, txIdx := 14, tmr := 0, phase := .awaiting } := by
  have hwait : nothingWaits s = true := by simp [nothingWaits, hp]
  rw [step_signal hwait hi hframe, transmitFrame_offered (s := { s with inputs := rest }) hp hidx ht,
    settle_of_busy Phase.noConfusion]

/-- The acknowledgement ends the attempt, and in the same step the host takes it as the success of the call. -/
theorem step_ack {s : State} {c : SetCall} {rest : List Input} (h : Unanswered s c) (hp : s.phase = .awaiting)
    (h0 : 0 ≤ c.level.toInt) (h255 : c.level.toInt ≤ 255) (hi : s.inputs = signalOf (.ack c.address) :: rest) :
    step s = .next (recordSuccess c { s with
      inputs := rest, rxb := Memory.ofBytes [0xFE, c.address, 0x06, 0xFF], result := .matched, phase := .idle }) := by
  have hwait : nothingWaits s = true := by simp [nothingWaits, hp, h.upstream]
  rw [step_signal hwait hi (exec_ack · _), receiveChunk_ack (s := { s with inputs := rest }) hp h.ackp h.rxb h.maxBuf]
  exact congrArg _ (settle_of_matched h.running rfl rfl h0 h255)

/-- The state in which the call that stands in `s` has succeeded: its frame is on the bus, and the buffer holds the acknowledgement. -/
def answered (c : SetCall) (s : State) : State :=
  recordSuccess c { s with
    inputs := []
    sent := s.sent ++ s.txf.toList
    txIdx := 14
    tmr := 0
    rxb := Memory.ofBytes [0xFE, c.address, 0x06, 0xFF]
    result := .matched
    phase := .idle }

section Answered
variable {s : State} {c : SetCall} {i : Instr} {n : Nat}
  (h : Unanswered s c) (hidx : s.txIdx = 0) (ht : 0 < s.cfgTTotal.toNat)
  (hframe : ∀ u, exec i u = .next (transmitFrame s.txf u)) (h0 : 0 ≤ c.level.toInt) (h255 : c.level.toInt ≤ 255)
include h hidx ht hframe h0 h255

theorem steps_writing_answered (hp : s.phase = .writing) (hi : s.inputs = [signalOf i, signalOf (.ack c.address)]) :
    steps 2 s = .next (answered c s) := by
  rw [steps_next 1 (step_frame hp hidx ht hframe hi)]
  refine steps_next 0 (step_ack ?_ rfl h0 h255 rfl)
  exact ⟨h.running, h.ackp, h.rxb, h.upstream, h.maxBuf⟩

/-- From its start the transaction takes the ticks of the flush window, one step for the frame and one for the acknowledgement. -/
theorem steps_answered (hp : s.phase = if n = 0 then .writing else .flushing)
    (hn : s.tmr.toNat + n = s.cfgTFlushWindow.toNat)
    (hi : s.inputs = List.replicate n (signalOf .tick) ++ [signalOf i, signalOf (.ack c.address)]) :
    steps (n + 2) s = .next (answered c s) := by
  refine (steps_add n 2 (steps_flush hp h.upstream hn hi)).trans ?_
  refine steps_writing_answered ?_ hidx ht hframe h0 h255 rfl rfl
  exact ⟨h.running, h.ackp, h.rxb, h.upstream, h.maxBuf⟩

end Answered

/-- Settles O60: the call starts the transaction, and its module answers. -/
theorem answeredSetSucceeds : Obligations.AnsweredSetSucceeds := by
  intro s a ch target level fade l1 t1 l2 t2 l3 t3 l4 t4 cks hinv hp hl hheld hup hb htotal hch h0 h255 hbytes hi
  have hframe : fieldsFrame a l1 t1 l2 t2 l3 t3 l4 t4 cks = encodeSet a target level.toInt fade.toInt :=
    Vector.toList_inj.mp hbytes.symm
  have hphase : (if s.cfgTFlushWindow = 0 then Phase.writing else .flushing) =
      if s.cfgTFlushWindow.toNat = 0 then .writing else .flushing := by simp [← BitVec.toNat_inj]
  rw [steps_next _ (step_set hp hheld hl hb hch hi)]
  refine ⟨_, steps_answered (c := ⟨a, ch, level, fade, s.retryBound⟩) ?_ rfl htotal (fun u => ?_) h0 h255 hphase
    (Nat.zero_add _) rfl, rfl, rfl, rfl, bytes_ofBytes _, rfl, ?_, rfl⟩
  · exact ⟨rfl, rfl, rfl, hup, hinv.registers.maxBuf_legal.1⟩
  · rw [exec_setLevels, hframe]
    rfl
  · exact currentState_of_cachePut hinv.registers.cache_canonical rfl

end Sys2Proof.Machine

/-! # The detector

What `KEEP_LAST` and `CONTAINS_ACK` say of a byte sequence, the window and the automaton against the search of the buffer, and the block's
own request against its own pattern (spec/41_ack_detect.md R110 to R118). -/

namespace Sys2Proof.Machine

open Sys2Proof

/-! ## Searching and truncating -/

/-- `CONTAINS_ACK`, index by index (spec/41_ack_detect.md R110). -/
theorem containsAck_iff_exists_index {bs : List Byte} {pattern : Pattern} :
    containsAck bs pattern = true ↔
      ∃ i, i + 4 ≤ bs.length ∧ bs[i]? = some pattern[0] ∧ bs[i + 1]? = some pattern[1] ∧
        bs[i + 2]? = some pattern[2] ∧ bs[i + 3]? = some pattern[3] := by
  rw [containsAck_iff_infix, List.infix_iff_getElem?]
  refine exists_congr fun i => ?_
  simp only [Vector.length_toList, Vector.getElem_toList, Nat.add_comm _ i]
  refine and_congr_right fun _ => ⟨fun h => ⟨h 0 (by decide), h 1 (by decide), h 2 (by decide), h 3 (by decide)⟩, ?_⟩
  rintro ⟨h0, h1, h2, h3⟩ j hj
  match j, hj with
  | 0, _ => exact h0
  | 1, _ => exact h1
  | 2, _ => exact h2
  | 3, _ => exact h3

/-- What ends the sequence and fits the bound survives the truncation. -/
theorem suffix_keepLast {t s : List Byte} {n : Nat} (h : t <:+ s) (hn : t.length ≤ n) : t <:+ keepLast s n := by
  refine List.suffix_of_suffix_length_le h (keepLast_suffix s n) ?_
  rw [keepLast_length]
  exact Nat.le_min.mpr ⟨h.length_le, hn⟩

/-- Truncating before the next byte changes nothing of what is kept after it. -/
theorem keepLast_keepLast_append (s t : List Byte) (n : Nat) : keepLast (keepLast s n ++ t) n = keepLast (s ++ t) n := by
  have hinner : keepLast s n ++ t <:+ s ++ t := List.suffix_append_self_iff.mpr (keepLast_suffix s n)
  have hsuffix := suffix_keepLast ((keepLast_suffix _ n).trans hinner) (keepLast_length_le _ n)
  refine hsuffix.eq_of_length ?_
  simp only [keepLast_length, List.length_append]
  omega

/-- The next byte brings a match exactly if it ends one (spec/41_ack_detect.md R114). -/
theorem containsAck_concat_iff {bs : List Byte} {x : Byte} {pattern : Pattern} :
    containsAck (bs ++ [x]) pattern = true ↔ pattern.toList <:+ bs ++ [x] ∨ containsAck bs pattern = true := by
  simp only [containsAck_iff_infix, List.infix_concat_iff]

/-- Settles O10: the search finds exactly the occurrences at an index, and `KEEP_LAST` is a suffix. -/
theorem containsAckAndKeepLast : Obligations.ContainsAckAndKeepLast := by
  refine ⟨fun _ _ => containsAck_iff_exists_index, fun s n => ⟨keepLast_eq_self, fun hn => ⟨?_, ?_⟩⟩⟩
  · rw [keepLast_length, Nat.min_eq_right (Nat.le_of_lt hn)]
  · obtain ⟨dropped, h⟩ := keepLast_suffix s n
    exact ⟨dropped, h.symm⟩

/-- Settles O11: fewer than four bytes hold no pattern, and a pattern with what follows it survives a truncation it fits. -/
theorem truncationAgainstMatching : Obligations.TruncationAgainstMatching := by
  constructor
  · intro buffer chunk n pattern hn
    rw [rxAppend, Bool.eq_false_iff, ne_eq, containsAck_iff_infix]
    intro h
    have hlen := Nat.le_trans h.length_le (keepLast_length_le _ n)
    rw [Vector.length_toList] at hlen
    omega
  · intro buffer before after n pattern hn
    have hnewest : pattern.toList ++ after <:+ buffer ++ (before ++ pattern.toList ++ after) :=
      ⟨buffer ++ before, by simp only [List.append_assoc]⟩
    have hfits : (pattern.toList ++ after).length ≤ n := by
      rw [List.length_append, Vector.length_toList]
      omega
    exact containsAck_iff_infix.mpr ((List.prefix_append _ after).isInfix.trans (suffix_keepLast hnewest hfits).isInfix)

/-! ## The window -/

/-- Bytes taken one by one: the newest byte is the last of the sequence. -/
theorem byteList_concat_induction {P : List Byte → Prop} (nil : P []) (concat : ∀ bs x, P bs → P (bs ++ [x])) (bs : List Byte) :
    P bs := by
  rw [← bs.reverse_reverse]
  induction bs.reverse with
  | nil => exact nil
  | cons x rest ih => rw [List.reverse_cons]; exact concat _ x ih

theorem bufferAfter_concat (n : Nat) (bs : List Byte) (x : Byte) :
    bufferAfter n (bs ++ [x]) = keepLast (bufferAfter n bs ++ [x]) n := by
  simp [bufferAfter]

/-- Byte by byte, the buffer holds the newest bytes of all that came. -/
theorem bufferAfter_eq_keepLast (n : Nat) (bs : List Byte) : bufferAfter n bs = keepLast bs n := by
  induction bs using byteList_concat_induction with
  | nil => exact (keepLast_eq_self (Nat.zero_le n)).symm
  | concat bs x ih => rw [bufferAfter_concat, ih, keepLast_keepLast_append]

/-- The window is a buffer with room for one pattern. -/
theorem windowAfter_eq_keepLast (bs : List Byte) : windowAfter bs = keepLast bs 4 := bufferAfter_eq_keepLast 4 bs

/-- The window is hit exactly if the newest four bytes are the pattern (spec/41_ack_detect.md R114). -/
theorem windowHit_windowAfter_iff {bs : List Byte} {pattern : Pattern} :
    windowHit (windowAfter bs) pattern = true ↔ pattern.toList <:+ bs := by
  have hlen : pattern.toList.length = 4 := pattern.length_toList
  rw [windowHit, windowAfter_eq_keepLast, Bool.and_eq_true, beq_iff_eq, beq_iff_eq]
  constructor
  · rintro ⟨-, h⟩
    exact h ▸ keepLast_suffix bs 4
  · intro h
    have hkeep : pattern.toList = keepLast bs 4 :=
      (suffix_keepLast h (Nat.le_of_eq hlen)).eq_of_length_le (hlen.symm ▸ keepLast_length_le bs 4)
    exact ⟨hkeep ▸ hlen, hkeep.symm⟩

/-- Settles O12: with no match in the buffer, the next byte makes one exactly if it ends the pattern. -/
theorem windowFormEqualsSearch : Obligations.WindowFormEqualsSearch := by
  intro n pattern bs x hn hmiss
  have hno : containsAck (bufferAfter n bs) pattern = false := by
    rw [← bs.take_length]
    exact hmiss bs.length (Nat.le_refl _)
  rw [Bool.eq_iff_iff, windowHit_windowAfter_iff]
  constructor
  · intro h
    rw [bufferAfter_concat, containsAck_iff_infix] at h
    have hgrown := containsAck_iff_infix.mpr (h.trans (keepLast_suffix _ n).isInfix)
    obtain hends | hold := containsAck_concat_iff.mp hgrown
    · rw [bufferAfter_eq_keepLast] at hends
      exact hends.trans (List.suffix_append_self_iff.mpr (keepLast_suffix bs n))
    · exact absurd hold (by simp [hno])
  · intro h
    rw [bufferAfter_eq_keepLast, containsAck_iff_infix]
    exact (suffix_keepLast h (by rwa [Vector.length_toList])).isInfix

/-! ## The automaton -/

/-- The newest bytes spell `s` leading bytes of the pattern and no more: what a state of the automaton stands for
(spec/41_ack_detect.md R115). -/
structure LongestSpelled (pattern : Pattern) (s : Nat) (bs : List Byte) : Prop where
  le_four : s ≤ 4
  spelled : pattern.toList.take s <:+ bs
  longest : ∀ k ≤ 4, pattern.toList.take k <:+ bs → k ≤ s

theorem take_four (pattern : Pattern) : pattern.toList.take 4 = pattern.toList :=
  List.take_of_length_le (Nat.le_of_eq pattern.length_toList)

/-- One more byte is spelled exactly if the bytes before spell one less and it is the pattern's next. -/
theorem take_succ_suffix_concat_iff {pattern : Pattern} {k : Nat} (hk : k < 4) {bs : List Byte} {x : Byte} :
    pattern.toList.take (k + 1) <:+ bs ++ [x] ↔ pattern.toList.take k <:+ bs ∧ pattern.toList[k]? = some x := by
  have hlen : k < pattern.toList.length := by rwa [Vector.length_toList]
  rw [← List.take_append_getElem hlen, List.suffix_append_inj_of_length_eq (by rfl), List.getElem?_eq_getElem hlen,
    List.cons.injEq, Option.some.injEq, and_iff_left rfl]

namespace LongestSpelled

variable {pattern : Pattern} {address : Byte} {s k : Nat} {bs : List Byte} {x : Byte}

theorem nil : LongestSpelled pattern 0 [] := by
  refine ⟨by decide, List.nil_suffix, fun k hk h => ?_⟩
  have hlen := h.length_le
  rw [List.length_take, Vector.length_toList, List.length_nil] at hlen
  omega

theorem eq_four_iff (h : LongestSpelled pattern s bs) : s = 4 ↔ pattern.toList <:+ bs := by
  constructor
  · rintro rfl
    exact take_four pattern ▸ h.spelled
  · intro hp
    exact Nat.le_antisymm h.le_four (h.longest 4 (Nat.le_refl 4) ((take_four pattern).symm ▸ hp))

/-- Of a sequence that has just grown, only what spells its last byte is to be bounded. -/
theorem of_succ (hs : s ≤ 4) (hspelled : pattern.toList.take s <:+ bs)
    (hlongest : ∀ k < 4, pattern.toList.take (k + 1) <:+ bs → k < s) : LongestSpelled pattern s bs where
  le_four := hs
  spelled := hspelled
  longest
    | 0, _, _ => Nat.zero_le s
    | k + 1, hk, h => hlongest k hk h

/-- Below a hit, the pattern of an address overlaps itself only in the `FE FE` of address `0xFE`. -/
theorem take_suffix_iff (h : LongestSpelled (expectedAck address) s bs) (hs : s < 4) (hk : k < 4) :
    (expectedAck address).toList.take k <:+ bs ↔ k = 0 ∨ k = s ∨ k = 1 ∧ s = 2 ∧ address = Config.start := by
  constructor
  · intro hsuffix
    have hks : k ≤ s := h.longest k (Nat.le_of_lt hk) hsuffix
    have hborder : (expectedAck address).toList.take k <:+ (expectedAck address).toList.take s :=
      List.suffix_of_suffix_length_le hsuffix h.spelled (List.take_prefix_take_left hks).length_le
    obtain rfl | hpos := k.eq_zero_or_pos
    · exact .inl rfl
    obtain rfl | hlt := Nat.eq_or_lt_of_le hks
    · exact .inr (.inl rfl)
    obtain ⟨rfl, rfl⟩ | ⟨rfl, rfl⟩ | ⟨rfl, rfl⟩ : k = 1 ∧ s = 2 ∨ k = 1 ∧ s = 3 ∨ k = 2 ∧ s = 3 := by omega
    · have haddr : address = Config.start := by simpa [expectedAck, List.suffix_cons_iff, eq_comm] using hborder
      exact .inr (.inr ⟨rfl, rfl, haddr⟩)
    · simp [expectedAck, List.suffix_cons_iff, Config.start, Config.ackCode] at hborder
    · have haddr : 0xFE#8 = address ∧ address = 0x06#8 := by
        simpa [expectedAck, List.suffix_cons_iff, Config.start, Config.ackCode] using hborder
      exact absurd (haddr.1.trans haddr.2) (by decide)
  · rintro (rfl | rfl | ⟨rfl, rfl, rfl⟩)
    · exact List.nil_suffix
    · exact h.spelled
    · exact List.IsSuffix.trans ⟨[Config.start], rfl⟩ h.spelled

/-- One byte of the automaton keeps what its state stands for. Off the pattern's next byte, only an `FE` can begin it again. -/
theorem step (h : LongestSpelled (expectedAck address) s bs) (hs : s < 4) :
    LongestSpelled (expectedAck address) (automatonStep (expectedAck address) s x) (bs ++ [x]) := by
  have hnext {k : Nat} (hk : k < 4) := (take_succ_suffix_concat_iff (x := x) hk).trans (and_congr_left' (h.take_suffix_iff hs hk))
  unfold automatonStep
  split
  · rename_i hx
    refine of_succ hs ((hnext hs).mpr ⟨.inr (.inl rfl), hx⟩) fun k hk hspelled => ?_
    exact Nat.lt_succ_of_le (h.longest k (Nat.le_of_lt hk) ((take_succ_suffix_concat_iff hk).mp hspelled).1)
  · rename_i hx
    have hback {k : Nat} (hk : k < 4) (hspelled : (expectedAck address).toList.take (k + 1) <:+ bs ++ [x]) :
        x = Config.start ∧ (k = 0 ∨ k = 1 ∧ s = 2 ∧ address = Config.start) := by
      obtain ⟨rfl | rfl | ⟨rfl, rfl, rfl⟩, hk⟩ := (hnext hk).mp hspelled
      · exact ⟨(Option.some.inj hk).symm, .inl rfl⟩
      · exact absurd hk hx
      · exact ⟨(Option.some.inj hk).symm, .inr ⟨rfl, rfl, rfl⟩⟩
    split
    · rename_i hstart
      split
      · rename_i hdouble
        obtain ⟨rfl, haddr⟩ := hdouble
        refine of_succ (by decide) ((hnext (by decide)).mpr ⟨.inr (.inr ⟨rfl, rfl, haddr⟩), ?_⟩) fun k hk hspelled => ?_
        · exact congrArg some (Eq.trans haddr hstart.symm)
        · have := (hback hk hspelled).2
          omega
      · rename_i hsingle
        refine of_succ (by decide) ((hnext (by decide)).mpr ⟨.inl rfl, congrArg some hstart.symm⟩) fun k hk hspelled => ?_
        obtain rfl | ⟨-, hs2, haddr⟩ := (hback hk hspelled).2
        · exact Nat.one_pos
        · exact absurd ⟨hs2, haddr⟩ hsingle
    · rename_i hother
      exact of_succ (by decide) List.nil_suffix fun k hk hspelled => absurd (hback hk hspelled).1 hother

end LongestSpelled

theorem automatonAfter_concat (pattern : Pattern) (bs : List Byte) (x : Byte) :
    automatonAfter pattern (bs ++ [x]) =
      if automatonAfter pattern bs = 4 then 4 else automatonStep pattern (automatonAfter pattern bs) x := by
  rw [automatonAfter, List.foldl_append]
  rfl

/-- Either the automaton has stopped at a match, or there was none and its state says what the newest bytes spell. -/
theorem automatonAfter_cases (address : Byte) (bs : List Byte) :
    automatonAfter (expectedAck address) bs = 4 ∧ containsAck bs (expectedAck address) = true ∨
      automatonAfter (expectedAck address) bs < 4 ∧ containsAck bs (expectedAck address) = false ∧
        LongestSpelled (expectedAck address) (automatonAfter (expectedAck address) bs) bs := by
  induction bs using byteList_concat_induction with
  | nil => exact .inr ⟨Nat.zero_lt_succ 3, rfl, .nil⟩
  | concat bs x ih =>
    obtain ⟨h4, hhit⟩ | ⟨hlt, hmiss, hspelled⟩ := ih
    · exact .inl ⟨by rw [automatonAfter_concat, if_pos h4], containsAck_concat_iff.mpr (.inr hhit)⟩
    · have hstep := hspelled.step (x := x) hlt
      have hiff := hstep.eq_four_iff.trans (containsAck_concat_iff.trans (or_iff_left (by simp [hmiss]))).symm
      rw [automatonAfter_concat, if_neg (Nat.ne_of_lt hlt)]
      obtain h4 | hlt' := Nat.eq_or_lt_of_le hstep.le_four
      · exact .inl ⟨h4, hiff.mp h4⟩
      · exact .inr ⟨hlt', Bool.eq_false_iff.mpr fun hc => Nat.ne_of_lt hlt' (hiff.mpr hc), hstep⟩

/-- Settles O13: a state below 4 says that no match has come. -/
theorem automatonFormEqualsSearch : Obligations.AutomatonFormEqualsSearch := by
  intro address bs
  obtain ⟨h4, hhit⟩ | ⟨hlt, hmiss, -⟩ := automatonAfter_cases address bs
  · exact iff_of_true h4 hhit
  · exact iff_of_false (Nat.ne_of_lt hlt) (by simp [hmiss])

/-! ## The echo of the block's own request -/

/-- A match begins at its `FE` (spec/30_encoding.md R61). -/
theorem containsAck_cons_iff {a b : Byte} {rest : List Byte} :
    containsAck (b :: rest) (expectedAck a) = true ↔
      b = 0xFE ∧ [a, 0x06, 0xFF] <+: rest ∨ containsAck rest (expectedAck a) = true := by
  have hpat : (expectedAck a).toList = [0xFE, a, 0x06, 0xFF] := rfl
  rw [containsAck_iff_infix, containsAck_iff_infix, List.infix_cons_iff, hpat, List.cons_prefix_cons, eq_comm (a := b)]

/-- In the header of a request `FE a` is followed by `57`. -/
theorem containsAck_requestHeader_append (a : Byte) (rest : List Byte) :
    containsAck ([0xFF, 0xFE, a, 0x57] ++ rest) (expectedAck a) = true ↔ containsAck rest (expectedAck a) = true := by
  simp +contextual [containsAck_cons_iff]

/-- The filler bytes `01` and `05` break every window that begins in the payload, but for one that the checksum `k` breaks. -/
theorem containsAck_payload_append (a : Byte) (target : Channel) (level fade : Int) (k : Byte) (rest : List Byte)
    (hecho : target = .ch4 → clamp level = 0xFE#8 → a = clamp fade → 0x06#8 ≠ k) :
    containsAck ((payload target level fade).toList ++ [k, 0xFF] ++ rest) (expectedAck a) = true ↔
      containsAck ([k, 0xFF] ++ rest) (expectedAck a) = true := by
  cases target
  case ch4 => simp +contextual [payload, pairFor, Config.fillLevel, Config.fillFade, containsAck_cons_iff, hecho rfl]
  all_goals simp [payload, pairFor, Config.fillLevel, Config.fillFade, containsAck_cons_iff]

/-- The one window of a request that could read `FE a 06 FF` needs the checksum 6 where its sum is odd (spec/41_ack_detect.md R118). -/
theorem checksum_ne_ackCode_of_echo {a : Byte} {target : Channel} {level fade : Int} (ht : target = .ch4) (hl : clamp level = 0xFE)
    (hf : a = clamp fade) : 0x06 ≠ checksum a Config.cmdSet (payload target level fade) := by
  subst ht
  have hsum : checksumSum a Config.cmdSet (payload .ch4 level fade) = 2 * a.toNat + 359 := by
    have hbytes : checksumSum a Config.cmdSet (payload .ch4 level fade) =
        a.toNat + 0x57 + 1 + 5 + 1 + 5 + 1 + 5 + (clamp level).toNat + (clamp fade).toNat := checksumSum_eq _ _ _
    have hlevel : (clamp level).toNat = 0xFE := congrArg BitVec.toNat hl
    rw [hbytes, hlevel, ← hf]
    omega
  intro h
  have hmod : 6 = (2 * a.toNat + 359) % 128 := by
    rw [← hsum, ← checksum_toNat, ← h]
    rfl
  omega

/-- A checksum has 7 bits. -/
theorem checksum_ne_of_ge {a c b : Byte} {p : Payload} (hb : 128 ≤ b.toNat) : checksum a c p ≠ b := by
  rintro rfl
  rw [checksum_toNat] at hb
  omega

/-- The request of a module brings no match of its pattern, whatever follows on the bus. -/
theorem containsAck_encodeSet_append (a : Byte) (target : Channel) (level fade : Int) (rest : List Byte) :
    containsAck ((encodeSet a target level fade).toList ++ rest) (expectedAck a) = containsAck rest (expectedAck a) := by
  have hstart : checksum a Config.cmdSet (payload target level fade) ≠ 0xFE#8 := checksum_ne_of_ge (by decide)
  rw [Bool.eq_iff_iff, encodeSet_eq, requestFrame_toList, List.append_assoc, List.append_assoc, containsAck_requestHeader_append,
    ← List.append_assoc, containsAck_payload_append _ _ _ _ _ _ checksum_ne_ackCode_of_echo]
  simp [containsAck_cons_iff, hstart]

/-- Settles O9: neither the first copy nor the second brings a match. -/
theorem echoNeverMatches : Obligations.EchoNeverMatches := by
  intro a target level fade f
  have hecho : containsAck f (expectedAck a) = false :=
    (congrArg (containsAck · _) (List.append_nil f).symm).trans (containsAck_encodeSet_append a target level fade [])
  exact ⟨hecho, (containsAck_encodeSet_append a target level fade f).trans hecho⟩

end Sys2Proof.Machine

/-! # Commands

What the commands do in `IDLE`, what they leave unchanged there, and that they wait while the block is busy (spec/42_transaction.md R132 to
R135, R141). -/

namespace Sys2Proof.Machine

open Sys2Proof

/-! ## The `cmd` port -/

theorem exec_instrOfCommand (c : HostCommand) (s : State) :
    exec (instrOfCommand c) s = .next (submit (.command c) s) := by
  cases c <;> rfl

theorem instrOfCommand_inj {c d : HostCommand} (h : instrOfCommand c = instrOfCommand d) : c = d := by
  cases c <;> cases d <;> cases h <;> rfl

theorem exec_instrOfCommand_idle {s : State} (c : HostCommand) (hp : s.phase = .idle) :
    exec (instrOfCommand c) s = .next (acceptCommand c s) :=
  (exec_instrOfCommand c s).trans (congrArg _ (submit_idle _ hp))

/-- Settles O18: a busy block holds what is presented. -/
theorem commandsWaitWhileBusy : Obligations.CommandsWaitWhileBusy := by
  intro s c hp
  rw [exec_instrOfCommand, submit_busy _ hp]

/-! ## The reserved command -/

theorem raise_of_idle {s : State} (f : Result) (hp : s.phase = .idle) : raise f s = { s with result := f } := by
  simp [raise, hp]

/-- Settles O16: the command raises `BAD_COMMAND` in `IDLE`. -/
theorem reservedCommandRefused : Obligations.ReservedCommandRefused := by
  intro s hp
  exact (exec_instrOfCommand_idle .reserved hp).trans (congrArg _ (raise_of_idle .badCommand hp))

/-! ## `CFGWR` -/

theorem acceptCfgwr_of_written {reg : BitVec 3} {v : Half} {s t : State} (h : writeConfig reg v s = some t) :
    acceptCfgwr reg v s = { t with result := .none } := by
  simp [acceptCfgwr, h]

theorem acceptCfgwr_of_refused {reg : BitVec 3} {v : Half} {s : State} (hp : s.phase = .idle)
    (h : writeConfig reg v s = none) : acceptCfgwr reg v s = { s with result := .badCommand } := by
  simp [acceptCfgwr, h, raise_of_idle _ hp]

theorem writeConfig_maxBuf (v : Half) (s : State) :
    writeConfig 4 v s =
      if 4 ≤ v.toNat ∧ v.toNat ≤ 4096 then some { s with cfgMaxBuf := v.setWidth 13 } else none := rfl

theorem writeConfig_reserved {reg : BitVec 3} (h : 5 ≤ reg.toNat) (v : Half) (s : State) : writeConfig reg v s = none := by
  obtain ⟨n, hn⟩ := Nat.exists_eq_add_of_le' h
  rw [writeConfig, hn]
  rfl

/-- Settles O15: the write of one register, or the refusal, for each register. -/
theorem cfgwrWritesRegister : Obligations.CfgwrWritesRegister := by
  intro s v hp
  have hexec (reg : BitVec 3) : exec (.cfgwr reg v) s = .next (acceptCfgwr reg v s) :=
    exec_instrOfCommand_idle (.cfgwr reg v) hp
  simp only [hexec]
  refine ⟨rfl, rfl, rfl, rfl, fun hv => ⟨v.setWidth 13, ?_, ?_⟩, fun hv => ?_, fun reg hreg => ?_⟩
  · rw [BitVec.toNat_setWidth, Nat.mod_eq_of_lt (by omega)]
  · rw [acceptCfgwr_of_written ((writeConfig_maxBuf v s).trans (if_pos hv))]
  · rw [acceptCfgwr_of_refused hp ((writeConfig_maxBuf v s).trans (if_neg (by omega)))]
  · rw [acceptCfgwr_of_refused hp (writeConfig_reserved hreg v s)]

/-! ## The link -/

theorem openLink_answered {s : State} {ok : Bool} {rest : List Bool} (hl : s.linkOpen = false)
    (ha : s.openAnswers = ok :: rest) : openLink s = (ok, { s with openAnswers := rest, linkOpen := ok }) := by
  simp [openLink_closed hl, drawOpen, ha]

/-- Without a listed answer a free value answers (log 4). -/
theorem openLink_unanswered {s : State} (hl : s.linkOpen = false) (ha : s.openAnswers = []) :
    ∃ ok, openLink s = (ok, { s with draws := s.draws + 1, linkOpen := ok }) :=
  ⟨Config.linkOpens s.draws, by simp [openLink_closed hl, drawOpen, ha]⟩

theorem acceptConnect_of_openLink {s t : State} {ok : Bool} (h : openLink s = (ok, t)) (hp : t.phase = .idle) :
    acceptConnect s = { t with result := if ok then .none else .linkUnavailable } := by
  cases ok <;> simp [acceptConnect, h, raise_of_idle _ hp]

/-- Settles O14: for each answer, what opening the link leaves and the result that goes with it. -/
theorem connectOpensLink : Obligations.ConnectOpensLink := by
  intro s hp
  have hexec : exec .connect s = .next (acceptConnect s) := exec_instrOfCommand_idle .connect hp
  rw [hexec]
  refine ⟨fun hl => ?_, fun hl => ⟨fun rest ha => ?_, fun rest ha => ?_, fun ha => ?_⟩⟩
  · rw [acceptConnect_of_openLink (openLink_open hl) hp]
    rfl
  · rw [acceptConnect_of_openLink (openLink_answered hl ha) hp]
    rfl
  · rw [acceptConnect_of_openLink (openLink_answered hl ha) hp]
    simp [hl]
  · obtain ⟨ok, hopen⟩ := openLink_unanswered hl ha
    exact ⟨ok, by rw [acceptConnect_of_openLink hopen hp]⟩

/-! ## `TRANSACT` -/

theorem acceptTransact_of_openLink {s t : State} {a : Byte} {c : BitVec 3} {l f : Half} {frame : Frame} {ok : Bool}
    (hf : operandFrame a c l f = some frame) (h : openLink s = (ok, t)) (hp : t.phase = .idle) :
    acceptTransact a c l f s =
      if ok then startTransaction frame (expectedAck a) t else { t with result := .linkUnavailable } := by
  cases ok <;> simp [acceptTransact, hf, h, raise_of_idle _ hp]

theorem acceptTransact_of_badChannel {s : State} {c : BitVec 3} (hc : c.toNat = 0 ∨ 5 ≤ c.toNat) (hp : s.phase = .idle)
    (a : Byte) (l f : Half) : acceptTransact a c l f s = { s with result := .badChannel } := by
  simp [acceptTransact, operandFrame, channelOf_eq_none.mpr hc, raise_of_idle _ hp]

/-- Settles O17: the channel decides first, then the link, then the transaction starts. -/
theorem transactAccepted : Obligations.TransactAccepted := by
  intro s a c l f hp
  have hexec : exec (.transact a c l f) s = .next (acceptTransact a c l f s) :=
    exec_instrOfCommand_idle (.transact a c l f) hp
  rw [hexec]
  refine ⟨fun hc => by rw [acceptTransact_of_badChannel hc hp], ?_⟩
  intro target hc started
  have hf : operandFrame a c l f = some (encodeSet a target l.toInt f.toInt) := operandFrame_eq_some.mpr ⟨target, hc, rfl⟩
  refine ⟨fun hl => ?_, fun hl => ⟨fun rest ha => ?_, fun rest ha => ?_, fun ha => ?_⟩⟩
  · rw [acceptTransact_open hl hf]
    simp [startTransaction, started, hl]
  · rw [acceptTransact_of_openLink hf (openLink_answered hl ha) hp]
    rfl
  · rw [acceptTransact_of_openLink hf (openLink_answered hl ha) hp]
    simp [hl]
  · obtain ⟨ok, hopen⟩ := openLink_unanswered hl ha
    refine ⟨ok, ?_⟩
    rw [acceptTransact_of_openLink hf hopen hp]
    cases ok
    · simp [hl]
    · rfl

/-! ## What the commands leave unchanged -/

theorem exists_instrOfCommand {i : Instr} (h : portOf i = .cmd) : ∃ c, i = instrOfCommand c := by
  cases i
  case connect => exact ⟨.connect, rfl⟩
  case cfgwr reg v => exact ⟨.cfgwr reg v, rfl⟩
  case transact a c l f => exact ⟨.transact a c l f, rfl⟩
  case cmdReserved => exact ⟨.reserved, rfl⟩
  all_goals simp [portOf] at h

theorem AcceptEffect.command_keeps_ports {s t : State} {c : HostCommand} (h : AcceptEffect s (.command c) t) :
    t.inputs = s.inputs ∧ t.upstream = s.upstream ∧ t.held = s.held ∧ t.sent = s.sent ∧ t.arbiterPicks = s.arbiterPicks ∧
      t.toControllers = s.toControllers := by
  cases h <;> exact ⟨rfl, rfl, rfl, rfl, rfl, rfl⟩

theorem AcceptEffect.keeps_config {s t : State} {r : Request} (h : AcceptEffect s r t)
    (hr : ∀ reg v, r ≠ .command (.cfgwr reg v)) :
    t.cfgTTotal = s.cfgTTotal ∧ t.cfgTChunk = s.cfgTChunk ∧ t.cfgTFlushWindow = s.cfgTFlushWindow ∧
      t.cfgTFlushRead = s.cfgTFlushRead ∧ t.cfgMaxBuf = s.cfgMaxBuf := by
  cases h with
  | connected => exact ⟨rfl, rfl, rfl, rfl, rfl⟩
  | configured reg v hcfgwr => exact absurd hcfgwr (hr reg v)
  | refused => exact ⟨rfl, rfl, rfl, rfl, rfl⟩
  | started => exact ⟨rfl, rfl, rfl, rfl, rfl⟩

/-- A transaction that starts leaves `IDLE`; every other acceptance leaves the registers of the transaction. -/
theorem AcceptEffect.keepsTransaction {s t : State} {r : Request} (h : AcceptEffect s r t) (ht : t.phase = .idle) :
    KeepsTransaction s t := by
  cases h with
  | connected => exact ⟨rfl, rfl, rfl, rfl, fun _ => rfl⟩
  | configured => exact ⟨rfl, rfl, rfl, rfl, fun _ => rfl⟩
  | refused => exact ⟨rfl, rfl, rfl, rfl, fun _ => rfl⟩
  | started => exact absurd ht (startTransaction_phase_ne_idle _ _ _)

theorem AcceptEffect.transacts_of_busy {s t : State} {r : Request} (h : AcceptEffect s r t) (hs : s.phase = .idle)
    (ht : t.phase ≠ .idle) : ∃ a c l f, Transacts r a c l f := by
  cases h with
  | connected => exact absurd hs ht
  | configured => exact absurd hs ht
  | refused => exact absurd rfl ht
  | started a c l f _ _ _ hr => exact ⟨a, c, l, f, hr⟩

/-- Of the configuration, `t` differs from `s` at most in register `reg`. -/
def ConfigDiffersAt (reg : BitVec 3) (s t : State) : Prop :=
  (t.cfgTTotal ≠ s.cfgTTotal → reg = 0) ∧ (t.cfgTChunk ≠ s.cfgTChunk → reg = 1) ∧
    (t.cfgTFlushWindow ≠ s.cfgTFlushWindow → reg = 2) ∧ (t.cfgTFlushRead ≠ s.cfgTFlushRead → reg = 3) ∧
    (t.cfgMaxBuf ≠ s.cfgMaxBuf → reg = 4)

theorem ConfigDiffersAt.of_written {reg : BitVec 3} {v : Half} {s t : State} (h : writeConfig reg v s = some t) :
    ConfigDiffersAt reg s t := by
  obtain ⟨rfl, hw⟩ | ⟨rfl, hw⟩ | ⟨rfl, hw⟩ | ⟨rfl, hw⟩ | ⟨rfl, -, -, hw⟩ | ⟨-, -, hw⟩ | ⟨-, hw⟩ :=
    writeConfig_cases reg v s <;> cases hw.symm.trans h <;> simp [ConfigDiffersAt]

theorem acceptCfgwr_configDiffersAt (reg : BitVec 3) (v : Half) (s : State) :
    ConfigDiffersAt reg s (acceptCfgwr reg v s) := by
  obtain ⟨t, hw, h⟩ | ⟨-, h⟩ := acceptCfgwr_cases reg v s <;> rw [h]
  · have hd : ConfigDiffersAt reg s t := .of_written hw
    exact hd
  · simp [ConfigDiffersAt]

/-- `CFGWR` neither opens the link nor asks the environment. -/
theorem acceptCfgwr_keeps_link (reg : BitVec 3) (v : Half) (s : State) :
    (acceptCfgwr reg v s).linkOpen = s.linkOpen ∧ (acceptCfgwr reg v s).openAnswers = s.openAnswers ∧
      (acceptCfgwr reg v s).draws = s.draws := by
  obtain ⟨t, hw, h⟩ | ⟨-, h⟩ := acceptCfgwr_cases reg v s <;> rw [h]
  · obtain ⟨_, _, _, _, _, rfl, -⟩ := writeConfig_spec hw
    exact ⟨rfl, rfl, rfl⟩
  · exact ⟨rfl, rfl, rfl⟩

/-- Settles O35: read off the effect of an accepted command, and for `CFGWR` off the write of its register. -/
theorem commandFrame : Obligations.CommandFrame := by
  intro i s t hport hp h
  obtain ⟨c, rfl⟩ := exists_instrOfCommand hport
  cases (exec_instrOfCommand_idle c hp).symm.trans h
  have ha : AcceptEffect s (.command c) (acceptCommand c s) := acceptRequest_effect (.command c) s
  refine ⟨ha.command_keeps_ports, fun hne => ha.keeps_config ?_, ?_, ?_, ha.keepsTransaction, fun ht => ?_⟩
  · rintro reg v ⟨⟩
    exact hne reg v rfl
  · intro reg v hi
    obtain rfl : c = .cfgwr reg v := instrOfCommand_inj hi
    exact acceptCfgwr_configDiffersAt reg v s
  · rintro (hi | ⟨reg, v, hi⟩)
    · obtain rfl : c = .reserved := instrOfCommand_inj hi
      exact ⟨rfl, rfl, rfl⟩
    · obtain rfl : c = .cfgwr reg v := instrOfCommand_inj hi
      exact acceptCfgwr_keeps_link reg v s
  · obtain ⟨a, ch, l, f, ⟨⟩⟩ := ha.transacts_of_busy hp ht
    exact ⟨a, ch, l, f, rfl⟩

end Sys2Proof.Machine

/-! # Events

What each event and wire frame does in each phase, how long the timed phases last, that fourteen transfers are one whole frame, and what
the events leave unchanged (spec/42_transaction.md R142 to R159). -/

namespace Sys2Proof.Machine

open Sys2Proof

/-! ## One instruction again and again -/

/-- A sequence of states in which the instruction leads from each to the next is the run. -/
theorem execAll_replicate {i : Instr} {n : Nat} {f : Nat → State} (h : ∀ m < n, exec i (f m) = .next (f (m + 1))) :
    execAll (List.replicate n i) (f 0) = .next (f n) := by
  induction n generalizing f with
  | zero => rfl
  | succ n ih =>
    have hrest := ih (f := (f <| · + 1)) fun m hm => h (m + 1) (Nat.succ_lt_succ hm)
    exact (execAll_next _ (h 0 n.succ_pos)).trans hrest

/-! ## Ticks -/

theorem succ_tmr_toNat {s : State} (h : s.tmr.toNat < 65535) : (s.tmr + 1).toNat = nextCount s :=
  countTick_tmr_toNat (bound := 0xFFFF) h

theorem tickBlock_of_untimed {s : State} (hp : s.phase = .writing ∨ s.phase = .idle) : tickBlock s = s := by
  obtain hp | hp := hp <;> simp [tickBlock, hp]

theorem tickBlock_of_flushing {s : State} (hp : s.phase = .flushing) :
    tickBlock s = { s with
      tmr := s.tmr + 1, phase := if nextCount s ≥ s.cfgTFlushWindow.toNat then .writing else .flushing } := by
  by_cases h : nextCount s ≥ s.cfgTFlushWindow.toNat <;> simp [tickBlock, tickFlushing, countTick, hp, h]

theorem tickBlock_before_deadline {s : State} (hp : s.phase = .awaiting) (h : nextCount s < s.cfgTTotal.toNat) :
    tickBlock s = { s with tmr := s.tmr + 1 } := by
  simp only [tickBlock, hp, tickAwaiting]
  rw [if_neg (Nat.not_le.mpr h), countTick, hp]

theorem tickBlock_at_deadline {s : State} (hp : s.phase = .awaiting) (h : nextCount s ≥ s.cfgTTotal.toNat) :
    tickBlock s = { s with tmr := s.tmr + 1, result := .noAckTimeout, phase := .idle } := by
  simp only [tickBlock, hp, tickAwaiting]
  rw [if_pos h, countTick, raise]

/-- Settles O19: below its largest value the timer counts exactly. -/
theorem tickInFlushing : Obligations.TickInFlushing := by
  intro s hp ht
  rw [exec_tick, tickBlock_of_flushing hp, succ_tmr_toNat ht]

/-- Settles O20: the two phases without a timer ignore the tick. -/
theorem tickWithoutEffect : Obligations.TickWithoutEffect :=
  fun _ hp => congrArg _ (tickBlock_of_untimed hp)

/-- Settles O21: below its largest value the timer counts exactly. -/
theorem tickInAwaiting : Obligations.TickInAwaiting := by
  intro s hp ht
  rw [exec_tick, succ_tmr_toNat ht]
  exact ⟨fun h => congrArg _ (tickBlock_before_deadline hp h), fun h => congrArg _ (tickBlock_at_deadline hp h)⟩

/-! ### How long the timed phases last -/

/-- The state `k` ticks after the flush phase began in `s` (spec/42_transaction.md R142, R145). -/
def afterFlushTicks (s : State) (k : Nat) : State :=
  { s with tmr := BitVec.ofNat 16 k, phase := if k = s.cfgTFlushWindow.toNat then .writing else .flushing }

/-- The state `k` ticks after the block began to await the acknowledgement in `s` (spec/42_transaction.md R150, R153). -/
def afterDeadlineTicks (s : State) (k : Nat) : State :=
  if k = s.cfgTTotal.toNat then { s with tmr := s.cfgTTotal, result := .noAckTimeout, phase := .idle }
  else { s with tmr := BitVec.ofNat 16 k }

/-- A timer that counts one by one passes a compare value by reaching it. -/
theorem nextCount_reaches_iff {s : State} {m : Nat} {bound : Half} (ht : s.tmr = BitVec.ofNat 16 m) (hm : m < bound.toNat) :
    nextCount s ≥ bound.toNat ↔ m + 1 = bound.toNat := by
  rw [nextCount, ht, BitVec.toNat_ofNat, Nat.mod_eq_of_lt (Nat.lt_trans hm bound.isLt)]
  exact ⟨fun hge => Nat.le_antisymm hm hge, fun he => Nat.le_of_eq he.symm⟩

theorem exec_tick_afterFlushTicks {s : State} {m : Nat} (hm : m < s.cfgTFlushWindow.toNat) :
    exec .tick (afterFlushTicks s m) = .next (afterFlushTicks s (m + 1)) := by
  have hp : (afterFlushTicks s m).phase = .flushing := if_neg (Nat.ne_of_lt hm)
  have hlast : nextCount (afterFlushTicks s m) ≥ (afterFlushTicks s m).cfgTFlushWindow.toNat ↔
      m + 1 = s.cfgTFlushWindow.toNat := nextCount_reaches_iff rfl hm
  rw [exec_tick, tickBlock_of_flushing hp]
  simp only [hlast]
  simp only [afterFlushTicks, BitVec.ofNat_add]
  rfl

theorem exec_tick_afterDeadlineTicks {s : State} {m : Nat} (hp : s.phase = .awaiting) (hm : m < s.cfgTTotal.toNat) :
    exec .tick (afterDeadlineTicks s m) = .next (afterDeadlineTicks s (m + 1)) := by
  have hbefore : afterDeadlineTicks s m = { s with tmr := BitVec.ofNat 16 m } := if_neg (Nat.ne_of_lt hm)
  have hlast := nextCount_reaches_iff (s := { s with tmr := BitVec.ofNat 16 m }) rfl hm
  have htmr : BitVec.ofNat 16 m + 1 = BitVec.ofNat 16 (m + 1) := (BitVec.ofNat_add m 1).symm
  rw [hbefore, exec_tick, afterDeadlineTicks]
  by_cases h : m + 1 = s.cfgTTotal.toNat
  · have htick : tickBlock { s with tmr := BitVec.ofNat 16 m } =
        { s with tmr := BitVec.ofNat 16 m + 1, result := .noAckTimeout, phase := .idle } :=
      tickBlock_at_deadline hp (hlast.mpr h)
    rw [if_pos h, htick, htmr, h, BitVec.ofNat_toNat, BitVec.setWidth_eq]
  · have htick : tickBlock { s with tmr := BitVec.ofNat 16 m } = { s with tmr := BitVec.ofNat 16 m + 1 } :=
      tickBlock_before_deadline hp (Nat.not_le.mp fun hge => h (hlast.mp hge))
    rw [if_neg h, htick, htmr]

/-- Settles O53: the state after each number of ticks leads to the state after the next. -/
theorem timedPhasesLastExactly : Obligations.TimedPhasesLastExactly := by
  intro s k htmr
  refine ⟨fun hp h0 hk => ?_, fun hp h0 hk => ?_⟩
  · have hstart : s = afterFlushTicks s 0 := eq_with_tmr_phase htmr (hp.trans (if_neg (Nat.ne_of_lt h0)).symm)
    have hrun := execAll_replicate (n := k) (f := afterFlushTicks s) fun m hm => exec_tick_afterFlushTicks (Nat.lt_of_lt_of_le hm hk)
    rwa [← hstart] at hrun
  · have hstart : afterDeadlineTicks s 0 = s := (if_neg (Nat.ne_of_lt h0)).trans (eq_with_tmr_phase htmr rfl).symm
    have hrun := execAll_replicate (n := k) (f := afterDeadlineTicks s) fun m hm =>
      exec_tick_afterDeadlineTicks hp (Nat.lt_of_lt_of_le hm hk)
    rwa [hstart] at hrun

/-! ## The receive side -/

/-- Settles O22: no chunk changes the state, so none of a sequence does. -/
theorem flushDiscardsChunks : Obligations.FlushDiscardsChunks := by
  intro s chunks hp
  induction chunks with
  | nil => rfl
  | cons c rest ih => exact (execAll_next _ (congrArg _ (receiveChunk_flushing c hp))).trans ih

/-- Settles O23: the buffer after the chunk is the appended and truncated one. -/
theorem chunkInAwaiting : Obligations.ChunkInAwaiting := by
  intro s c hp bytes kept
  have hkept : Memory.bytes (Memory.append s.rxb (chunkBytes c) s.cfgMaxBuf.toNat) = kept := bytes_append _ _ _
  refine ⟨_, hkept, wf_append _ _ _, ?_⟩
  rw [exec_rxChunk, receiveChunk_awaiting c hp, hkept]

theorem receiveChunk_stores {s : State} (c : Chunk) (hp : s.phase = .awaiting) :
    (receiveChunk c s).rxb = Memory.append s.rxb (chunkBytes c) s.cfgMaxBuf.toNat := by
  rw [receiveChunk_awaiting c hp]
  split <;> rfl

theorem receiveChunk_rxb_of_not_awaiting {s : State} (c : Chunk) (hp : s.phase ≠ .awaiting) :
    (receiveChunk c s).rxb = s.rxb := by
  obtain ⟨-, h⟩ | ⟨-, h⟩ | ⟨ha, -⟩ := receiveChunk_cases c s
  · rw [h]
  · rw [h]
  · exact absurd ha hp

/-- Settles O34: both instructions hand their chunk to the receiver, which stores it in `AWAITING` alone. -/
theorem chunkStores : Obligations.ChunkStores := by
  refine ⟨fun s t i c hi h => ?_, fun s addr => rfl⟩
  have hexec : exec i s = .next (receiveChunk c s) := by
    obtain rfl | ⟨addr, rfl, rfl⟩ := hi <;> rfl
  cases hexec.symm.trans h
  refine ⟨fun hp a => ?_, fun hp a => ?_⟩
  · rw [receiveChunk_stores c hp, readByte_append]
  · rw [receiveChunk_rxb_of_not_awaiting c hp]

theorem receiveError_reading {s : State} (hp : s.phase = .flushing ∨ s.phase = .awaiting) :
    receiveError s = { s with result := .readError, phase := .idle } := by
  obtain hp | hp := hp <;> simp [receiveError, raise, hp]

theorem receiveError_not_reading {s : State} (hp : s.phase = .idle ∨ s.phase = .writing) : receiveError s = s := by
  obtain hp | hp := hp <;> simp [receiveError, hp]

/-- Settles O24: in both phases a read is outstanding, and the invariant says what the phase has done so far. -/
theorem receiverErrorEndsAttempt : Obligations.ReceiverErrorEndsAttempt := by
  refine ⟨fun s hp => ⟨congrArg _ (receiveError_reading (.inl hp)), fun h => ?_⟩,
    fun s hp => ⟨congrArg _ (receiveError_reading (.inr hp)), fun h => (h.phases.awaiting hp).1⟩⟩
  obtain ⟨hidx, -, hrxb⟩ := h.phases.flushing hp
  exact ⟨hidx, hrxb⟩

/-! ## The transmit side -/

theorem transmitError_writing {s : State} (hp : s.phase = .writing) :
    transmitError s = { s with result := .writeFailed, phase := .idle } := by
  simp [transmitError, raise, hp]

/-- Settles O27: the error raises `WRITE_FAILED`, and the invariant says what the phase has done so far. -/
theorem transmitterErrorEndsAttempt : Obligations.TransmitterErrorEndsAttempt :=
  fun _ hp => ⟨congrArg _ (transmitError_writing hp), fun h => h.phases.writing hp⟩

theorem transmitByte_not_writing {s : State} (hp : s.phase ≠ .writing) : transmitByte s = s := by
  obtain ⟨-, h⟩ | ⟨-, hw, -⟩ := transmitByte_cases s
  · exact h
  · exact absurd hw hp

theorem transmitError_not_writing {s : State} (hp : s.phase ≠ .writing) : transmitError s = s := by
  obtain ⟨-, h⟩ | ⟨hw, -⟩ := transmitError_cases s
  · exact h
  · exact absurd hw hp

/-- Settles O28: outside its phases each of the four does nothing to the block. -/
theorem notEnabledEvents : Obligations.NotEnabledEvents := by
  refine fun s => ⟨fun hp => ⟨?_, ?_⟩, fun hp => ⟨?_, fun c => ?_⟩⟩
  · exact congrArg _ (transmitByte_not_writing hp)
  · exact congrArg _ (transmitError_not_writing hp)
  · exact congrArg _ (receiveError_not_reading hp)
  · exact congrArg _ (receiveChunk_not_reading c hp)

/-! ### The end of the write -/

/-- The end of the write with its two outcomes written out (spec/42_transaction.md R147). -/
theorem endWrite_eq (s : State) :
    endWrite s =
      if s.cfgTTotal = 0 then { s with tmr := 0, result := .noAckTimeout, phase := .idle }
      else { s with tmr := 0, phase := .awaiting } := by
  obtain ⟨ht, h⟩ | ⟨ht, h⟩ := endWrite_cases s
  · have hne : s.cfgTTotal ≠ 0 := fun h0 => by simp [h0] at ht
    rw [h, if_neg hne]
  · rw [h, if_pos ht]
    rfl

/-! ### One byte -/

/-- The transmitter takes byte `k`; the fourteenth byte ends the write (spec/42_transaction.md R146, R147). -/
theorem transmitByte_writing {s : State} {k : Nat} (hk : k < 14) (hp : s.phase = .writing) (hi : s.txIdx.toNat = k) :
    let taken := { s with sent := s.sent ++ [s.txf[k]], txIdx := BitVec.ofNat 4 (k + 1) }
    transmitByte s = if k = 13 then endWrite taken else taken := by
  subst hi
  have hnext : s.txIdx + 1 = BitVec.ofNat 4 (s.txIdx.toNat + 1) := by simp [BitVec.ofNat_add]
  obtain ⟨hno, -⟩ | ⟨_, -, ⟨hlt, h⟩ | ⟨hlast, h⟩⟩ := transmitByte_cases s
  · exact absurd ⟨hp, hk⟩ hno
  · rw [hnext] at h
    exact h.trans (if_neg (Nat.ne_of_lt hlt)).symm
  · have hidx : s.txIdx.toNat = 13 := congrArg BitVec.toNat hlast
    rw [hnext] at h
    exact h.trans (if_pos hidx).symm

/-- Settles O25: an index below 13 is not the last. -/
theorem transmitterTakesByte : Obligations.TransmitterTakesByte := by
  intro s k hk hp hi
  rw [exec_txAccept, transmitByte_writing (Nat.lt_succ_of_lt hk) hp hi, if_neg (Nat.ne_of_lt hk)]

/-- Settles O26: index 13 is the last, and the write ends. -/
theorem lastByteEndsWrite : Obligations.LastByteEndsWrite := by
  intro s hp hi
  have hlast : transmitByte s = endWrite { s with sent := s.sent ++ [s.txf[13]], txIdx := 14 } :=
    transmitByte_writing (k := 13) (by decide) hp (congrArg BitVec.toNat hi)
  rw [exec_txAccept, hlast, endWrite_eq]
  refine ⟨fun ht => ?_, fun ht => congrArg _ (if_pos ht)⟩
  have hne : s.cfgTTotal ≠ 0 := fun h0 => by simp [h0] at ht
  exact congrArg _ (if_neg hne)

/-! ### The whole frame -/

theorem fieldsFrame_toList (addr l1 t1 l2 t2 l3 t3 l4 t4 : Byte) (cks : BitVec 7) :
    (fieldsFrame addr l1 t1 l2 t2 l3 t3 l4 t4 cks).toList =
      [0xFF, 0xFE, addr, 0x57, l1, t1, l2, t2, l3, t3, l4, t4, cks.setWidth 8, 0xFF] := rfl

theorem transmitFrame_of_offered {s : State} {frame : Frame} (hp : s.phase = .writing) (hi : s.txIdx = 0)
    (hf : s.txf = frame) :
    transmitFrame frame s = endWrite { s with sent := s.sent ++ frame.toList, txIdx := 14 } :=
  if_pos ⟨hp, hi, hf⟩

theorem transmitFrame_of_not_offered {s : State} {frame : Frame} (h : s.phase ≠ .writing ∨ s.txIdx ≠ 0 ∨ s.txf ≠ frame) :
    transmitFrame frame s = s := by
  refine if_neg ?_
  rintro ⟨hp, hi, hf⟩
  obtain h | h | h := h
  · exact h hp
  · exact h hi
  · exact h hf

/-- Settles O29: the frame offered goes on the bus and the write ends; no other frame is taken. -/
theorem wholeFrameSent : Obligations.WholeFrameSent := by
  intro s addr l1 t1 l2 t2 l3 t3 l4 t4 cks bytes
  have hbytes : s.txf.toList = bytes ↔ s.txf = fieldsFrame addr l1 t1 l2 t2 l3 t3 l4 t4 cks := by
    rw [← Vector.toList_inj, fieldsFrame_toList]
  refine ⟨fun hp hi hf => ?_, fun h => ?_⟩
  · rw [exec_setLevels, transmitFrame_of_offered hp hi (hbytes.mp hf), endWrite_eq]
    rfl
  · rw [ne_eq, ne_eq, ne_eq, hbytes] at h
    rw [exec_setLevels, transmitFrame_of_not_offered h]

/-- The state after `k` transfers of the write that began in `s` (spec/42_transaction.md R146, R147). -/
def afterTransfers (s : State) (k : Nat) : State :=
  let taken := { s with sent := s.sent ++ s.txf.toList.take k, txIdx := BitVec.ofNat 4 k }
  if k = 14 then endWrite taken else taken

theorem exec_txAccept_afterTransfers {s : State} {k : Nat} (hp : s.phase = .writing) (hk : k < 14) :
    exec .txAccept (afterTransfers s k) = .next (afterTransfers s (k + 1)) := by
  have hbefore : afterTransfers s k = { s with sent := s.sent ++ s.txf.toList.take k, txIdx := BitVec.ofNat 4 k } :=
    if_neg (Nat.ne_of_lt hk)
  have hidx : (BitVec.ofNat 4 k).toNat = k := by
    rw [BitVec.toNat_ofNat]
    omega
  have htake : s.txf.toList.take (k + 1) = s.txf.toList.take k ++ [s.txf[k]] := by
    rw [List.take_succ_eq_append_getElem (by simpa using hk), Vector.getElem_toList]
  have hbyte := transmitByte_writing (s := { s with sent := s.sent ++ s.txf.toList.take k, txIdx := BitVec.ofNat 4 k })
    hk hp hidx
  rw [hbefore, exec_txAccept, hbyte, afterTransfers, htake, ← List.append_assoc]
  simp only [Nat.succ_inj]

/-- Settles O30: the state after each number of transfers leads to the next, and after fourteen the whole frame is on the bus. -/
theorem wholeFrameRefinesTransfers : Obligations.WholeFrameRefinesTransfers := by
  intro s addr l1 t1 l2 t2 l3 t3 l4 t4 cks hp hi hbytes
  have hzero : BitVec.ofNat 4 0 = s.txIdx := hi.symm
  have hstart : afterTransfers s 0 = s := by simp [afterTransfers, hzero]
  have hend : afterTransfers s 14 = endWrite { s with sent := s.sent ++ s.txf.toList, txIdx := 14 } := by
    rw [afterTransfers, if_pos rfl, List.take_of_length_le (Nat.le_of_eq s.txf.length_toList)]
    rfl
  have hrun := execAll_replicate (n := 14) (f := afterTransfers s) fun m hm => exec_txAccept_afterTransfers hp hm
  have hf : s.txf = fieldsFrame addr l1 t1 l2 t2 l3 t3 l4 t4 cks := Vector.toList_inj.mp hbytes
  rw [hstart, hend] at hrun
  rw [hrun, exec_setLevels, transmitFrame_of_offered hp hi hf, hf]

end Sys2Proof.Machine

/-! # What the events leave unchanged, and which request a step accepts

The frame of the events and wire frames (spec/42_transaction.md R130), the result that ends a transaction (R157), and the step that takes a
signal or accepts one of the waiting requests (R132; spec/43_host_controller.md R172; spec/60_exceptions.md R208). -/

namespace Sys2Proof.Machine

open Sys2Proof

/-! ## The events -/

theorem exec_event_effect {i : Instr} {s t : State} (hport : portOf i = .event ∨ portOf i = .wireOut ∨ portOf i = .wireIn)
    (h : exec i s = .next t) : EventEffect s t := by
  cases i <;> cases h
  case tick => exact tickBlock_effect s
  case rxChunk c => exact receiveChunk_effect c s
  case ack => exact receiveChunk_effect _ s
  case rxErr => exact receiveError_effect s
  case txAccept => exact transmitByte_effect s
  case txErr => exact transmitError_effect s
  case setLevels => exact transmitFrame_effect _ s
  all_goals simp [portOf] at hport

/-- Besides what `EventKeeps` says: no event takes an answer of the environment or a choice of the arbiter, or touches the host. -/
theorem EventEffect.keeps_surroundings {s t : State} (h : EventEffect s t) :
    t.inputs = s.inputs ∧ t.held = s.held ∧ t.openAnswers = s.openAnswers ∧ t.arbiterPicks = s.arbiterPicks ∧
      t.draws = s.draws ∧ t.toControllers = s.toControllers := by
  cases h <;> exact ⟨rfl, rfl, rfl, rfl, rfl, rfl⟩

/-- The result changes only where a transaction ends. -/
theorem EventEffect.idle_of_result_ne {s t : State} (h : EventEffect s t) (hne : t.result ≠ s.result) : t.phase = .idle := by
  cases h with
  | deadline => rfl
  | hit => rfl
  | readError => rfl
  | writeError => rfl
  | writtenNoWait => rfl
  | _ => exact absurd rfl hne

/-- The buffer and what waits upstream are as they were. -/
def SparesReceiver (s t : State) : Prop := t.rxb = s.rxb ∧ t.upstream = s.upstream

/-- The bus and the index are as they were. -/
def SparesTransmitter (s t : State) : Prop := t.sent = s.sent ∧ t.txIdx = s.txIdx

theorem tickBlock_spares (s : State) : SparesReceiver s (tickBlock s) ∧ SparesTransmitter s (tickBlock s) := by
  obtain ⟨-, h⟩ | ⟨-, -, h⟩ | ⟨-, -, h⟩ | ⟨-, -, h⟩ | ⟨-, -, h⟩ := tickBlock_cases s <;> rw [h] <;>
    exact ⟨⟨rfl, rfl⟩, rfl, rfl⟩

theorem receiveChunk_spares (c : Chunk) (s : State) :
    SparesTransmitter s (receiveChunk c s) ∧ (receiveChunk c s).tmr = s.tmr := by
  obtain ⟨-, h⟩ | ⟨-, h⟩ | ⟨-, ⟨-, h⟩ | ⟨-, h⟩⟩ := receiveChunk_cases c s <;> rw [h] <;> exact ⟨⟨rfl, rfl⟩, rfl⟩

theorem receiveError_spares (s : State) :
    SparesReceiver s (receiveError s) ∧ SparesTransmitter s (receiveError s) ∧ (receiveError s).tmr = s.tmr := by
  obtain ⟨-, h⟩ | ⟨-, h⟩ := receiveError_cases s <;> rw [h] <;> exact ⟨⟨rfl, rfl⟩, ⟨rfl, rfl⟩, rfl⟩

theorem transmitError_spares (s : State) :
    SparesReceiver s (transmitError s) ∧ SparesTransmitter s (transmitError s) ∧ (transmitError s).tmr = s.tmr := by
  obtain ⟨-, h⟩ | ⟨-, h⟩ := transmitError_cases s <;> rw [h] <;> exact ⟨⟨rfl, rfl⟩, ⟨rfl, rfl⟩, rfl⟩

theorem endWrite_spares (s : State) : SparesReceiver s (endWrite s) := by
  obtain ⟨-, h⟩ | ⟨-, h⟩ := endWrite_cases s <;> rw [h] <;> exact ⟨rfl, rfl⟩

theorem transmitByte_spares (s : State) : SparesReceiver s (transmitByte s) := by
  obtain ⟨-, h⟩ | ⟨_, -, ⟨-, h⟩ | ⟨-, h⟩⟩ := transmitByte_cases s <;> rw [h]
  · exact ⟨rfl, rfl⟩
  · exact ⟨rfl, rfl⟩
  · exact endWrite_spares _

theorem transmitFrame_spares (frame : Frame) (s : State) : SparesReceiver s (transmitFrame frame s) := by
  obtain ⟨-, h⟩ | ⟨-, -, -, h⟩ := transmitFrame_cases frame s <;> rw [h]
  · exact ⟨rfl, rfl⟩
  · exact endWrite_spares _

/-- Which events and wire frames write the buffer, the index and the timer. -/
structure EventSpares (i : Instr) (s t : State) : Prop where
  receiver : portOf i ≠ .wireIn → (∀ c, i ≠ .rxChunk c) → SparesReceiver s t
  transmitter : portOf i ≠ .wireOut → i ≠ .txAccept → SparesTransmitter s t
  timer : portOf i ≠ .wireOut → i ≠ .txAccept → i ≠ .tick → t.tmr = s.tmr

theorem exec_eventSpares {i : Instr} {s t : State} (hport : portOf i = .event ∨ portOf i = .wireOut ∨ portOf i = .wireIn)
    (h : exec i s = .next t) : EventSpares i s t := by
  cases i <;> cases h
  case tick =>
    obtain ⟨hrx, htx⟩ := tickBlock_spares s
    exact ⟨fun _ _ => hrx, fun _ _ => htx, fun _ _ hne => absurd rfl hne⟩
  case rxChunk c =>
    obtain ⟨htx, htmr⟩ := receiveChunk_spares c s
    exact ⟨fun _ hne => absurd rfl (hne c), fun _ _ => htx, fun _ _ _ => htmr⟩
  case ack addr =>
    obtain ⟨htx, htmr⟩ := receiveChunk_spares (ackChunk addr) s
    exact ⟨fun hne => absurd rfl hne, fun _ _ => htx, fun _ _ _ => htmr⟩
  case rxErr =>
    obtain ⟨hrx, htx, htmr⟩ := receiveError_spares s
    exact ⟨fun _ _ => hrx, fun _ _ => htx, fun _ _ _ => htmr⟩
  case txErr =>
    obtain ⟨hrx, htx, htmr⟩ := transmitError_spares s
    exact ⟨fun _ _ => hrx, fun _ _ => htx, fun _ _ _ => htmr⟩
  case txAccept =>
    exact ⟨fun _ _ => transmitByte_spares s, fun _ hne => absurd rfl hne, fun _ hne => absurd rfl hne⟩
  case setLevels =>
    exact ⟨fun _ _ => transmitFrame_spares _ s, fun hne => absurd rfl hne, fun hne => absurd rfl hne⟩
  all_goals simp [portOf] at hport

/-- Settles O33: what no event writes is read off the transition table, the rest off each event's own operation. -/
theorem eventFrame : Obligations.EventFrame := by
  intro i s t hport h
  have he := exec_event_effect hport h
  have hk := he.keeps
  have hs := exec_eventSpares hport h
  refine ⟨⟨hk.txf, hk.ackp, hk.linkOpen, hk.cfgTTotal, hk.cfgTChunk, hk.cfgTFlushWindow, hk.cfgTFlushRead, hk.cfgMaxBuf,
    he.keeps_surroundings⟩, fun hin hchunk => ?_, hs.transmitter, hs.timer, he.idle_of_result_ne⟩
  obtain ⟨hrxb, hupstream⟩ := hs.receiver hin hchunk
  exact ⟨fun a => by rw [hrxb], hupstream⟩

/-! ## The end of a transaction -/

theorem EventEffect.result_of_ended {s t : State} (h : EventEffect s t) (hs : s.phase ≠ .idle) (ht : t.phase = .idle) :
    t.result = .matched ∨ t.result = .noAckTimeout ∨ t.result = .writeFailed ∨ t.result = .readError := by
  cases h with
  | hit => exact .inl rfl
  | deadline => exact .inr (.inl rfl)
  | writtenNoWait => exact .inr (.inl rfl)
  | writeError => exact .inr (.inr (.inl rfl))
  | readError => exact .inr (.inr (.inr rfl))
  | endFlush => cases ht
  | written => cases ht
  | _ => exact absurd ht hs

/-- Settles O42: only an event takes a busy block to `IDLE`, and it raises one of the four; this does not rest on the invariant. -/
theorem lockReleasedWithResult : Obligations.LockReleasedWithResult := by
  intro i s t _ h hs ht
  cases exec_effect h with
  | event he => exact he.result_of_ended hs ht
  | accept r hr hp ha => exact absurd hp hs
  | hold => exact absurd ht hs
  | noAttempt => exact absurd ht hs

/-! ## The step that takes a signal -/

/-- Settles O47: with nothing waiting the environment's input moves. -/
theorem stepRunsSignal : Obligations.StepRunsSignal := by
  intro s port bytes rest i hi hw hd
  rw [step, nextMove_of_nothingWaits hw, runMove, runInput_signal hi hd]

/-! ## The step that accepts a request -/

section Waiting
variable {s : State} (hp : s.phase = .idle) (hh : s.held ≠ []) (hr : ∀ rest, s.inputs ≠ .rst :: rest)
include hp hh hr

theorem step_contend (ha : requestArrives s.inputs = true) : step s = contend s := by
  rw [step, nextMove_waiting hp hh hr, if_pos ha, runMove]

theorem step_present (ha : requestArrives s.inputs = false) : step s = .next (settle (presentHeld s)) := by
  rw [step, nextMove_waiting hp hh hr, ha, if_neg Bool.false_ne_true, runMove]

end Waiting

/-- A lone request is presented without a choice. -/
theorem presentHeld_lone {s : State} {r : Request} (h : s.held = [r]) : presentHeld s = acceptRequest r { s with held := [] } := by
  simp [presentHeld, drawArbiter, presentAt, h]

section Listed
variable {s : State} {k : Nat} {picks : List Nat} (hpick : s.arbiterPicks = k :: picks)
include hpick

theorem presentHeld_listed {r : Request} (hk : s.held[k]? = some r) (h2 : 2 ≤ s.held.length) :
    presentHeld s = acceptRequest r { s with held := s.held.eraseIdx k, arbiterPicks := picks } := by
  have hlt : k < s.held.length := (List.getElem?_eq_some_iff.mp hk).1
  have hdraw := drawArbiter_listed h2 hlt hpick
  simp only [presentHeld, hdraw]
  exact presentAt_of_get hk

theorem contend_listed_waiting {r : Request} (hk : s.held[k]? = some r) :
    contend s = .next (settle (acceptRequest r { s with held := s.held.eraseIdx k, arbiterPicks := picks })) := by
  have hlt : k < s.held.length := (List.getElem?_eq_some_iff.mp hk).1
  have hdraw := drawArbiter_listed (n := s.held.length + 1) (by omega) (by omega) hpick
  have hpresent : presentAt k { s with arbiterPicks := picks } =
      acceptRequest r { s with held := s.held.eraseIdx k, arbiterPicks := picks } := presentAt_of_get hk
  simp only [contend, hdraw, if_pos hlt, hpresent]

theorem contend_listed_arriving (hh : s.held ≠ []) (hk : k = s.held.length) :
    contend s = runInput { s with arbiterPicks := picks } := by
  have hpos := List.length_pos_iff.mpr hh
  have hdraw := drawArbiter_listed (n := s.held.length + 1) (by omega) (by omega) hpick
  simp only [contend, hdraw, hk, if_neg (Nat.lt_irrefl _)]

end Listed

/-- Settles O49: the arbiter presents one of the waiting requests, or under contention the arriving one. -/
theorem stepPresentsWaiting : Obligations.StepPresentsWaiting := by
  intro s hp hh hr
  refine ⟨fun c hc ha => ?_, ?_, fun k picks hpick => ⟨fun r hk hchoice => ?_, fun hk => ⟨?_, ?_⟩⟩⟩
  · rw [step_present hp hh hr ha, presentHeld_lone hc, exec_instrOfCommand, submit_idle (s := { s with held := [] }) _ hp]
    rfl
  · cases ha : requestArrives s.inputs with
    | true =>
      obtain ⟨picks, draws, ⟨k, r, hk, h⟩ | h⟩ := contend_cases s
      · exact ⟨picks, draws, .inl ⟨k, r, hk, (step_contend hp hh hr ha).trans h⟩⟩
      · exact ⟨picks, draws, .inr ⟨rfl, (step_contend hp hh hr ha).trans h⟩⟩
    | false =>
      obtain ⟨k, r, picks, draws, hk, h⟩ := presentHeld_spec hh
      exact ⟨picks, draws, .inl ⟨k, r, hk, by rw [step_present hp hh hr ha, h]⟩⟩
  · cases ha : requestArrives s.inputs with
    | true => rw [step_contend hp hh hr ha, contend_listed_waiting hpick hk]
    | false =>
      have h2 : 2 ≤ s.held.length := hchoice.resolve_left (by simp [ha])
      rw [step_present hp hh hr ha, presentHeld_listed hpick hk h2]
  · intro port bytes rest i hi hport hd
    have ha : requestArrives s.inputs = true := by rw [hi]; exact hport
    rw [step_contend hp hh hr ha, contend_listed_arriving hpick hh hk]
    exact runInput_signal hi hd
  · intro call rest hi
    have ha : requestArrives s.inputs = true := by rw [hi]; rfl
    rw [step_contend hp hh hr ha, contend_listed_arriving hpick hh hk]
    exact runInput_call hi

end Sys2Proof.Machine

/-! # The reference host

What `NORM_FADE` makes of a transition time, the call of the collaborator, what the end of an attempt does to the caches, and the run of a call
on a link that never opens (spec/43_host_controller.md R171 to R178). -/

namespace Sys2Proof.Machine

open Sys2Proof

/-! ## The transition time -/

/-- A fraction of seconds is truncated toward zero, then clamped (spec/43_host_controller.md R171). -/
theorem normFade_seconds (num : Int) {den : Nat} (hden : 0 < den) : normFade (.seconds num den) = clamp (num.tdiv den) := by
  cases den with
  | zero => exact absurd hden (Nat.lt_irrefl 0)
  | succ d => rfl

/-- At or above zero the truncated quotient is the greatest integer not above the fraction. -/
theorem tdiv_eq_of_nonneg {num q : Int} {den : Nat} (hden : 0 < den) (hnum : 0 ≤ num) (hlow : q * den ≤ num)
    (hhigh : num < (q + 1) * den) : num.tdiv den = q := by
  have hpos : (0 : Int) < den := Int.natCast_pos.mpr hden
  rw [Int.tdiv_eq_ediv_of_nonneg hnum]
  exact Int.le_antisymm (Int.lt_add_one_iff.mp (Int.ediv_lt_of_lt_mul hpos hhigh)) (Int.le_ediv_of_mul_le hpos hlow)

/-- Below zero it is the least integer not below the fraction. -/
theorem tdiv_eq_of_neg {num q : Int} {den : Nat} (hden : 0 < den) (hnum : num < 0) (hlow : (q - 1) * den < num)
    (hhigh : num ≤ q * den) : num.tdiv den = q := by
  have hlow' : -q * den ≤ -num := by rw [Int.neg_mul]; omega
  have hhigh' : -num < (-q + 1) * den := by
    rw [show -q + 1 = -(q - 1) by omega, Int.neg_mul]
    omega
  have hneg : (-num).tdiv den = -q := tdiv_eq_of_nonneg hden (by omega) hlow' hhigh'
  rw [Int.neg_tdiv] at hneg
  exact Int.neg_inj.mp hneg

/-- Settles O54: the two pairs of bounds say that `q` is the quotient truncated toward zero. -/
theorem normFadeTruncatesAndClamps : Obligations.NormFadeTruncatesAndClamps := by
  refine ⟨rfl, rfl, fun num den hden q hnonneg hneg => ?_⟩
  have hq : num.tdiv den = q := by
    by_cases hnum : 0 ≤ num
    · obtain ⟨hlow, hhigh⟩ := hnonneg hnum
      exact tdiv_eq_of_nonneg hden hnum hlow hhigh
    · obtain ⟨hlow, hhigh⟩ := hneg (Int.not_le.mp hnum)
      exact tdiv_eq_of_neg hden (Int.not_le.mp hnum) hlow hhigh
  rw [normFade_seconds num hden, hq, clamp_toNat_eq_ite]

/-! ## The call of the collaborator -/

/-- Settles O48: with nothing waiting the environment's input moves, and a call is the `SET` with the normalised time. -/
theorem stepRunsCollaboratorCall : Obligations.StepRunsCollaboratorCall := by
  intro s a c l time rest hi hw
  rw [step, nextMove_of_nothingWaits hw, runMove, runInput_call hi, callInstr, operandOfByte]

/-! ## The end of an attempt that failed -/

section Failed
variable {s : State} {c : SetCall} (hr : s.running = some c) (hp : s.phase = .idle) (hm : s.result ≠ .matched)
include hr hp hm

theorem settle_of_failed_retry (hl : 1 < c.left) :
    settle s = { s with running := none, held := s.held ++ [.attempt { c with left := c.left - 1 }] } := by
  rw [settle_of_ended hr hp, if_neg hm, attemptFailed, if_neg (Nat.not_le.mpr hl)]

theorem settle_of_failed_last (hl : c.left ≤ 1) :
    settle s = { s with
      running := none
      returned := s.returned ++ [.commandFailed c.address c.channel (currentState c.address c.channel s).isOn] } := by
  rw [settle_of_ended hr hp, if_neg hm, attemptFailed, if_pos hl, giveUp, failedCall]

theorem settle_cache_of_failed : (settle s).cache = s.cache := by
  by_cases hl : 1 < c.left
  · rw [settle_of_failed_retry hr hp hm hl]
  · rw [settle_of_failed_last hr hp hm (Nat.not_lt.mp hl)]

end Failed

/-- Settles O58: the attempt failed, and attempts are left or they are not. -/
theorem failureKeepsCache : Obligations.FailureKeepsCache := fun _ _ hr hp hm =>
  ⟨settle_of_failed_retry hr hp hm, settle_of_failed_last hr hp hm, settle_cache_of_failed hr hp hm⟩

/-! ## The end of an attempt that matched -/

theorem controllerKey_inj {a a' : Byte} {c c' : BitVec 3} (h : controllerKey a c = controllerKey a' c') :
    (a, c) = (a', c') := by
  have hc := c.isLt
  have hc' := c'.isLt
  unfold controllerKey at h
  have haddress : a = a' := BitVec.eq_of_toNat_eq (by omega)
  have hchannel : c = c' := BitVec.eq_of_toNat_eq (by omega)
  rw [haddress, hchannel]

/-- An entry written for one controller is no other controller's. -/
theorem currentState_of_cachePut_ne {s t : State} {a a' : Byte} {c c' : BitVec 3} {e : CacheEntry}
    (hwf : cacheWf s.cache = true) (h : t.cache = cachePut (controllerKey a c) e s.cache) (hne : (a', c') ≠ (a, c)) :
    currentState a' c' t = currentState a' c' s := by
  have hkey : controllerKey a' c' ≠ controllerKey a c := fun hk => hne (controllerKey_inj hk)
  rw [currentState, currentState, h, cacheFind_cachePut _ _ _ _ hwf, if_neg hkey]

/-- Settles O57: the host records the success, which writes the call's entry and no other. -/
theorem successCachesLevel : Obligations.SuccessCachesLevel := by
  intro s c hwf hr hp hm h0 h255 entry
  rw [settle_of_matched hr hp hm h0 h255]
  refine ⟨currentState_of_cachePut hwf rfl, fun a ch hne => ?_, rfl, rfl, rfl, rfl⟩
  exact currentState_of_cachePut_ne hwf rfl hne

/-- Settles O56: level 0 is recorded as off and brightness 0, and a failure writes no entry. -/
theorem turnOffIsSetZero : Obligations.TurnOffIsSetZero := by
  refine ⟨fun s a c f => by rw [exec_turnOff, exec_set], fun s c hwf hr hlevel hp => ⟨fun hm => ?_, fun hm => ?_⟩⟩
  · have h0 : c.level.toInt = 0 := by rw [hlevel]; rfl
    have hentry : levelEntry c.level = { isOn := false, brightness := 0 } := by rw [hlevel]; rfl
    rw [settle_of_matched hr hp hm (by omega) (by omega), ← hentry]
    exact currentState_of_cachePut hwf rfl
  · exact settle_cache_of_failed hr hp hm

/-! ## A link that never opens -/

/-- On a closed link, in `IDLE`, a `TRANSACT` with a legal channel uses up the next answer; a refusal leaves its result and nothing else
(spec/42_transaction.md R141; spec/60_exceptions.md R191). -/
theorem acceptTransact_refused {s : State} {a : Byte} {c : BitVec 3} {l f : Half} {frame : Frame} {answers : List Bool}
    (hp : s.phase = .idle) (hl : s.linkOpen = false) (hf : operandFrame a c l f = some frame)
    (ho : s.openAnswers = false :: answers) :
    acceptTransact a c l f s = { s with openAnswers := answers, result := .linkUnavailable } := by
  have hdraw : drawOpen s = (false, { s with openAnswers := answers }) := by rw [drawOpen, ho]
  have hopen : openLink s = (false, { s with openAnswers := answers }) := by rw [openLink_closed hl, hdraw, ← hl]
  simp only [acceptTransact, hf, hopen, raise, ← hp]
  rfl

/-- The attempt of the call `c` has been refused, with `answers` left to come; the host has not looked at it yet. -/
def attemptRefused (c : SetCall) (answers : List Bool) (s : State) : State :=
  { s with openAnswers := answers, result := .linkUnavailable, running := some c }

/-- The block is idle on a closed link, nothing waits or is to come, and the channel of the call `c` is legal. -/
structure CallsClosedLink (c : SetCall) (s : State) : Prop where
  phase : s.phase = .idle
  linkOpen : s.linkOpen = false
  inputs : s.inputs = []
  held : s.held = []
  channel : ∃ target, c.channel.toNat = channelNumber target

theorem acceptRequest_attempt_refused {s : State} {c : SetCall} {answers : List Bool} (h : CallsClosedLink c s)
    (ho : s.openAnswers = false :: answers) : acceptRequest (.attempt c) s = attemptRefused c answers s := by
  obtain ⟨target, hc⟩ := h.channel
  rw [acceptRequest, acceptTransact_refused h.phase h.linkOpen (operandFrame_eq_some.mpr ⟨target, hc, rfl⟩) ho]
  rfl

/-- In `IDLE`, with no input and one request waiting, a step accepts the request. -/
theorem step_lone_request {s : State} {r : Request} (hp : s.phase = .idle) (hi : s.inputs = []) (hh : s.held = [r]) :
    step s = .next (settle (acceptRequest r { s with held := [] })) := by
  have hne : s.held ≠ [] := by simp [hh]
  have hrst (rest : List Input) : s.inputs ≠ .rst :: rest := by simp [hi]
  rw [step_present hp hne hrst (by rw [hi]; rfl), presentHeld_lone hh]

/-- The state in which the next attempt of a call is presented after a refusal, of which the result is left and the answer used up. -/
def betweenAttempts (answers : List Bool) (s : State) : State :=
  { s with openAnswers := answers, result := .linkUnavailable, running := none, held := [] }

/-- With an attempt left, the host holds it, and the next step accepts it (spec/43_host_controller.md R173). -/
theorem step_attemptRefused {s : State} {c : SetCall} {answers : List Bool} (h : CallsClosedLink c s) (hl : 1 < c.left) :
    step (settle (attemptRefused c answers s)) =
      .next (settle (acceptRequest (.attempt { c with left := c.left - 1 }) (betweenAttempts answers s))) := by
  rw [settle_of_failed_retry (s := attemptRefused c answers s) rfl h.phase Result.noConfusion hl]
  exact step_lone_request h.phase h.inputs (congrArg (· ++ _) h.held)

/-- The call `c` has failed for want of a link, with `answers` left to come. -/
def linkFailed (c : SetCall) (answers : List Bool) (s : State) : State :=
  { betweenAttempts answers s with
    returned := s.returned ++ [.commandFailed c.address c.channel (currentState c.address c.channel s).isOn] }

/-- With no attempt left, the host gives up the call (spec/43_host_controller.md R175). -/
theorem settle_attemptRefused_last {s : State} {c : SetCall} {answers : List Bool} (h : CallsClosedLink c s) (hl : c.left ≤ 1) :
    settle (attemptRefused c answers s) = linkFailed c answers s := by
  rw [settle_of_failed_last (s := attemptRefused c answers s) rfl h.phase Result.noConfusion hl]
  simp only [attemptRefused, linkFailed, betweenAttempts, h.held]
  rfl

/-- Once the first of `n + 1` attempts is accepted, `n` steps use up the others and end the call. -/
theorem steps_attempts_refused {n : Nat} {s : State} {c : SetCall} {answers : List Bool} (h : CallsClosedLink c s)
    (hleft : c.left = n + 1) (ho : s.openAnswers = List.replicate (n + 1) false ++ answers) :
    steps n (settle (acceptRequest (.attempt c) s)) = .next (linkFailed c answers s) := by
  induction n generalizing s c with
  | zero =>
    rw [acceptRequest_attempt_refused h ho, settle_attemptRefused_last h (Nat.le_of_eq hleft)]
    rfl
  | succ n ih =>
    have hnext : CallsClosedLink { c with left := c.left - 1 } (betweenAttempts (List.replicate (n + 1) false ++ answers) s) :=
      ⟨h.phase, h.linkOpen, h.inputs, rfl, h.channel⟩
    rw [acceptRequest_attempt_refused h ho, steps_next n (step_attemptRefused h (by omega))]
    exact ih hnext (by simp [hleft]) rfl

/-- Settles O59: the call's step makes the first attempt, and each of the other steps the next one. -/
theorem retryBoundExact : Obligations.RetryBoundExact := by
  intro n s a ch target l f answers hb hp hl hr hheld hc ho hi
  have hwait : nothingWaits s = true := by simp [nothingWaits, hp, hheld]
  have hcalls : CallsClosedLink ⟨a, ch, l, f, s.retryBound⟩ { s with inputs := [] } := ⟨hp, hl, rfl, hheld, target, hc⟩
  have hfirst : startCall a ch l f { s with inputs := [] } =
      acceptRequest (.attempt ⟨a, ch, l, f, s.retryBound⟩) { s with inputs := [] } := by
    rw [startCall_of_retry (s := { s with inputs := [] }) (hb ▸ Nat.succ_pos n)]
    exact submit_idle _ hp
  rw [steps_next n (step_signal hwait hi (exec_set · a ch l f)), hfirst, steps_attempts_refused hcalls hb ho,
    linkFailed, betweenAttempts, hr, hheld]
  rfl

end Sys2Proof.Machine

/-! # Events of one cycle

The order in which a clocked build consumes the events of one cycle is an insertion sort by their places (spec/60_exceptions.md R199). -/

namespace Sys2Proof.Machine

open Sys2Proof

/-- The first event comes no later than the second, by their places (spec/60_exceptions.md R199). -/
def NoLater (i j : Instr) : Prop := eventRank i ≤ eventRank j

/-! ## Inserting one event -/

/-- An event goes before a first one of its own or a later place. -/
theorem insertEvent_of_noLater {i j : Instr} (h : NoLater i j) (rest : List Instr) : insertEvent i (j :: rest) = i :: j :: rest :=
  if_pos h

/-- An event goes behind a first one of an earlier place. -/
theorem insertEvent_of_not_noLater {i j : Instr} (h : ¬ NoLater i j) (rest : List Instr) :
    insertEvent i (j :: rest) = j :: insertEvent i rest :=
  if_neg h

/-- Inserting adds the event and keeps the others. -/
theorem insertEvent_perm (i : Instr) (sorted : List Instr) : (insertEvent i sorted).Perm (i :: sorted) := by
  induction sorted with
  | nil => exact .refl _
  | cons j rest ih =>
    by_cases h : NoLater i j
    · rw [insertEvent_of_noLater h]
    · rw [insertEvent_of_not_noLater h]
      exact (ih.cons j).trans (.swap i j rest)

/-- Inserting into a sorted list leaves it sorted. -/
theorem insertEvent_pairwise (i : Instr) {sorted : List Instr} (hs : sorted.Pairwise NoLater) :
    (insertEvent i sorted).Pairwise NoLater := by
  induction sorted with
  | nil => exact List.pairwise_singleton NoLater i
  | cons j rest ih =>
    obtain ⟨hj, hrest⟩ := List.pairwise_cons.mp hs
    by_cases h : NoLater i j
    · rw [insertEvent_of_noLater h]
      refine List.pairwise_cons.mpr ⟨fun k hk => ?_, hs⟩
      obtain rfl | hk := List.mem_cons.mp hk
      · exact h
      · exact Nat.le_trans h (hj k hk)
    · rw [insertEvent_of_not_noLater h]
      refine List.pairwise_cons.mpr ⟨fun k hk => ?_, ih hrest⟩
      obtain rfl | hk := List.mem_cons.mp ((insertEvent_perm i rest).mem_iff.mp hk)
      · exact Nat.le_of_not_le h
      · exact hj k hk

/-! ## Serialising all of them -/

/-- Serialising loses no event and adds none. -/
theorem serialise_perm (events : List Instr) : (serialise events).Perm events := by
  induction events with
  | nil => exact .refl _
  | cons i rest ih => exact (insertEvent_perm i (serialise rest)).trans (ih.cons i)

/-- The serialised events are sorted by their places. -/
theorem serialise_pairwise (events : List Instr) : (serialise events).Pairwise NoLater := by
  induction events with
  | nil => exact .nil
  | cons i rest ih => exact insertEvent_pairwise i ih

/-- Settles O52: insertion by place permutes and sorts, and the places rise in the order of R199. -/
theorem serialisedEvents : Obligations.SerialisedEvents := fun events =>
  ⟨serialise_perm events, serialise_pairwise events, fun _ => ⟨Nat.zero_lt_one, by decide, by decide⟩⟩

end Sys2Proof.Machine

/-! # A reset

It goes before whatever waits. The block it leaves is in `IDLE` with the result `NONE`, so the reference host takes a call it cut off
for a failed attempt (spec/70_reset_and_hazards.md R220, R222; log 16). -/

namespace Sys2Proof.Machine

open Sys2Proof

theorem step_rst {s : State} {rest : List Input} (h : s.inputs = .rst :: rest) :
    step s = .next (settle (resetBlock { s with inputs := rest })) := by
  rw [step, nextMove_rst h, runMove, runInput_rst h]

/-- In `IDLE` without a match no call stays in progress: the host puts what it issues behind what waits, and its answer behind those
given. -/
theorem settle_of_unmatched {s : State} (hp : s.phase = .idle) (hm : s.result ≠ .matched) :
    ∃ issued answered, settle s = { s with
      running := none, held := s.held ++ issued, returned := s.returned ++ answered } := by
  cases hr : s.running with
  | none =>
    refine ⟨[], [], ?_⟩
    rw [settle_of_no_call hr, List.append_nil, List.append_nil, ← hr]
  | some c =>
    by_cases hl : 1 < c.left
    · refine ⟨[.attempt { c with left := c.left - 1 }], [], ?_⟩
      rw [settle_of_failed_retry hr hp hm hl, List.append_nil]
    · refine ⟨[], [.commandFailed c.address c.channel (currentState c.address c.channel s).isOn], ?_⟩
      rw [settle_of_failed_last hr hp hm (Nat.not_lt.mp hl), List.append_nil]

/-- Settles O46: the reset moves first, and after it the host drops its call at most issuing a further attempt behind what waits. -/
theorem resetInAnyPhase : Obligations.ResetInAnyPhase := by
  intro s rest hi
  obtain ⟨issued, answered, hsettle⟩ :=
    settle_of_unmatched (s := resetBlock { s with inputs := rest }) rfl Result.noConfusion
  refine ⟨_, step_rst hi, ?_⟩
  rw [hsettle]
  exact ⟨rfl, rfl, rfl, rfl, rfl, rfl, List.prefix_append s.held issued⟩

end Sys2Proof.Machine
